-- ==== Sys2Proof/Word.lean ====
section
/-! DEFINITION. Word.lean: the plain types of the spec's values (spec/00_scope.md R8, R10, R11): the register
width W, bytes, instruction words, register numbers. -/

namespace Sys2Proof

/-- One byte of memory (20_memory.md R50). -/
abbrev Byte := BitVec 8

/-- An instruction word, the decoder's 32-bit input (30_encoding.md R80). -/
abbrev InsnWord := BitVec 32

/-- A 5-bit architectural register number, 0 to 31 (10_state.md R21). -/
abbrev Reg := BitVec 5

/-- The register width parameter `W`, one of 32 or 64 (00_scope.md R8). -/
inductive Width where
  | w32
  | w64
  deriving DecidableEq, Repr

/-- `W` as a number of bits (00_scope.md R8). -/
def Width.bits : Width → Nat
  | .w32 => 32
  | .w64 => 64

/-- How many bits of a register a register shift uses: 5 at W = 32, 6 at W = 64 (42_base_alu.md section 4). -/
def Width.shamtBits : Width → Nat
  | .w32 => 5
  | .w64 => 6

/-- The constant `MIN = 2^(W-1)`, the most negative value (00_scope.md R11). -/
abbrev minVal (w : Nat) : BitVec w := BitVec.intMin w

/-- The constant `MAX = 2^W - 1`, all ones (00_scope.md R11). -/
abbrev maxVal (w : Nat) : BitVec w := BitVec.allOnes w

end Sys2Proof
end

