-- ==== Sys2Proof/Machine/Flags.lean ====
section
/-! DEFINITION. Machine/Flags.lean: the machine has no flags (10_state.md R30); what stands here are the comparisons of
registers (44_base_control.md R251 to R256, 42_base_alu.md R163, R164, R174, R175) and the overflow of a signed
division, which the register abstraction answers as a value and no instruction stores (R30, 41_m_arith.md R153). -/

namespace Sys2Proof.Machine

/-- `s(a) < s(b)` (00_scope.md R11). -/
def lessSigned {w : Nat} (a b : BitVec w) : Bool := decide (a.toInt < b.toInt)

/-- `u(a) < u(b)` (00_scope.md R11). -/
def lessUnsigned {w : Nat} (a b : BitVec w) : Bool := decide (a.toNat < b.toNat)

/-- A comparison's result as a register value: 1 or 0 (42_base_alu.md R174). -/
def boolValue {w : Nat} (c : Bool) : BitVec w := if c then 1 else 0

/-- The overflow of a signed division: the dividend is MIN and the divisor is -1 (41_m_arith.md R150, R153). -/
def divOverflows {w : Nat} (a b : BitVec w) : Bool := a == minVal w && b == maxVal w

end Sys2Proof.Machine
end

