-- ==== Sys2Proof/Syntax.lean ====
section
/-! DEFINITION. Syntax.lean: the typed instruction (30_encoding.md R92) with one constructor per mnemonic of
spec/opcode_table.json. An operand stands as the bits the word carries: an I- or S-immediate is its 12 bits, a
branch offset the 13 bits of `imm[12:0]` and a jump offset the 21 bits of `imm[20:0]` (bit 0 is always 0, R86, R88),
an upper immediate the 20 bits `w[31:12]`, a shift amount 6 bits (5 for the word forms). The W-bit immediate is
its sign extension (log 11). -/

namespace Sys2Proof

/-- The extension tag of a typed instruction (30_encoding.md R92; 00_scope.md R2, R3). -/
inductive Extension where
  | I
  | M
  deriving DecidableEq, Repr

/-- The typed instructions (30_encoding.md R92). Operand order: `rd`, `rs1`, `rs2`, immediate. -/
inductive Instr where
  -- extension M (41_m_arith.md)
  | mul (rd rs1 rs2 : Reg)
  | mulh (rd rs1 rs2 : Reg)
  | mulhsu (rd rs1 rs2 : Reg)
  | mulhu (rd rs1 rs2 : Reg)
  | div (rd rs1 rs2 : Reg)
  | divu (rd rs1 rs2 : Reg)
  | rem (rd rs1 rs2 : Reg)
  | remu (rd rs1 rs2 : Reg)
  -- upper immediates (42_base_alu.md section 2)
  | lui (rd : Reg) (imm20 : BitVec 20)
  | auipc (rd : Reg) (imm20 : BitVec 20)
  -- control transfer (44_base_control.md)
  | jal (rd : Reg) (offset : BitVec 21)
  | jalr (rd rs1 : Reg) (imm : BitVec 12)
  | beq (rs1 rs2 : Reg) (offset : BitVec 13)
  | bne (rs1 rs2 : Reg) (offset : BitVec 13)
  | blt (rs1 rs2 : Reg) (offset : BitVec 13)
  | bge (rs1 rs2 : Reg) (offset : BitVec 13)
  | bltu (rs1 rs2 : Reg) (offset : BitVec 13)
  | bgeu (rs1 rs2 : Reg) (offset : BitVec 13)
  -- loads and stores (43_base_loadstore.md); lwu, ld and sd at W = 64 only
  | lb (rd rs1 : Reg) (imm : BitVec 12)
  | lh (rd rs1 : Reg) (imm : BitVec 12)
  | lw (rd rs1 : Reg) (imm : BitVec 12)
  | lbu (rd rs1 : Reg) (imm : BitVec 12)
  | lhu (rd rs1 : Reg) (imm : BitVec 12)
  | lwu (rd rs1 : Reg) (imm : BitVec 12)
  | ld (rd rs1 : Reg) (imm : BitVec 12)
  | sb (rs1 rs2 : Reg) (imm : BitVec 12)
  | sh (rs1 rs2 : Reg) (imm : BitVec 12)
  | sw (rs1 rs2 : Reg) (imm : BitVec 12)
  | sd (rs1 rs2 : Reg) (imm : BitVec 12)
  -- register-immediate (42_base_alu.md section 3)
  | addi (rd rs1 : Reg) (imm : BitVec 12)
  | slti (rd rs1 : Reg) (imm : BitVec 12)
  | sltiu (rd rs1 : Reg) (imm : BitVec 12)
  | xori (rd rs1 : Reg) (imm : BitVec 12)
  | ori (rd rs1 : Reg) (imm : BitVec 12)
  | andi (rd rs1 : Reg) (imm : BitVec 12)
  | slli (rd rs1 : Reg) (shamt : BitVec 6)
  | srli (rd rs1 : Reg) (shamt : BitVec 6)
  | srai (rd rs1 : Reg) (shamt : BitVec 6)
  -- register-register (42_base_alu.md section 4)
  | add (rd rs1 rs2 : Reg)
  | sub (rd rs1 rs2 : Reg)
  | sll (rd rs1 rs2 : Reg)
  | slt (rd rs1 rs2 : Reg)
  | sltu (rd rs1 rs2 : Reg)
  | xor (rd rs1 rs2 : Reg)
  | srl (rd rs1 rs2 : Reg)
  | sra (rd rs1 rs2 : Reg)
  | or (rd rs1 rs2 : Reg)
  | and (rd rs1 rs2 : Reg)
  -- word forms, W = 64 only (42_base_alu.md section 5)
  | addiw (rd rs1 : Reg) (imm : BitVec 12)
  | slliw (rd rs1 : Reg) (shamt : BitVec 5)
  | srliw (rd rs1 : Reg) (shamt : BitVec 5)
  | sraiw (rd rs1 : Reg) (shamt : BitVec 5)
  | addw (rd rs1 rs2 : Reg)
  | subw (rd rs1 rs2 : Reg)
  | sllw (rd rs1 rs2 : Reg)
  | srlw (rd rs1 rs2 : Reg)
  | sraw (rd rs1 rs2 : Reg)
  -- fence and environment (45_base_system.md)
  | fence
  | ecall
  | ebreak
  deriving DecidableEq, Repr

/-- The extension an instruction belongs to (30_encoding.md R92, R94, R95). -/
def Instr.ext : Instr → Extension
  | .mul .. | .mulh .. | .mulhsu .. | .mulhu .. | .div .. | .divu .. | .rem .. | .remu .. => .M
  | .lui .. | .auipc .. | .jal .. | .jalr .. => .I
  | .beq .. | .bne .. | .blt .. | .bge .. | .bltu .. | .bgeu .. => .I
  | .lb .. | .lh .. | .lw .. | .lbu .. | .lhu .. | .lwu .. | .ld .. => .I
  | .sb .. | .sh .. | .sw .. | .sd .. => .I
  | .addi .. | .slti .. | .sltiu .. | .xori .. | .ori .. | .andi .. => .I
  | .slli .. | .srli .. | .srai .. => .I
  | .add .. | .sub .. | .sll .. | .slt .. | .sltu .. | .xor .. | .srl .. | .sra .. | .or .. | .and .. => .I
  | .addiw .. | .slliw .. | .srliw .. | .sraiw .. => .I
  | .addw .. | .subw .. | .sllw .. | .srlw .. | .sraw .. => .I
  | .fence | .ecall | .ebreak => .I

end Sys2Proof
end

