-- ==== Sys2Proof/WellFormed.lean ====
section
/-! DEFINITION. WellFormed.lean: which typed instructions the decoder can return at a given W and EXTENSIONS
(30_encoding.md R86, R88, R89, R93, R102). -/

namespace Sys2Proof

/-- The instruction exists at this width: the W = 64 rows at W = 64 only (30_encoding.md R99, R102), a shift amount of
32 or more at W = 64 only (R89, R109). -/
def Instr.fitsWidth (wd : Width) : Instr → Bool
  | .lwu .. | .ld .. | .sd .. => wd == .w64
  | .addiw .. | .slliw .. | .srliw .. | .sraiw .. => wd == .w64
  | .addw .. | .subw .. | .sllw .. | .srlw .. | .sraw .. => wd == .w64
  | .slli _ _ shamt | .srli _ _ shamt | .srai _ _ shamt => decide (shamt.toNat < wd.bits)
  | .mul .. | .mulh .. | .mulhsu .. | .mulhu .. | .div .. | .divu .. | .rem .. | .remu .. => true
  | .lui .. | .auipc .. | .jal .. | .jalr .. => true
  | .beq .. | .bne .. | .blt .. | .bge .. | .bltu .. | .bgeu .. => true
  | .lb .. | .lh .. | .lw .. | .lbu .. | .lhu .. | .sb .. | .sh .. | .sw .. => true
  | .addi .. | .slti .. | .sltiu .. | .xori .. | .ori .. | .andi .. => true
  | .add .. | .sub .. | .sll .. | .slt .. | .sltu .. | .xor .. | .srl .. | .sra .. | .or .. | .and .. => true
  | .fence | .ecall | .ebreak => true

/-- A branch or jump offset is even: bit 0 is 0 (30_encoding.md R86, R88). -/
def Instr.evenOffset : Instr → Bool
  | .beq _ _ off | .bne _ _ off | .blt _ _ off | .bge _ _ off | .bltu _ _ off | .bgeu _ _ off => !off.getLsbD 0
  | .jal _ off => !off.getLsbD 0
  | .mul .. | .mulh .. | .mulhsu .. | .mulhu .. | .div .. | .divu .. | .rem .. | .remu .. => true
  | .lui .. | .auipc .. | .jalr .. => true
  | .lb .. | .lh .. | .lw .. | .lbu .. | .lhu .. | .lwu .. | .ld .. => true
  | .sb .. | .sh .. | .sw .. | .sd .. => true
  | .addi .. | .slti .. | .sltiu .. | .xori .. | .ori .. | .andi .. | .slli .. | .srli .. | .srai .. => true
  | .add .. | .sub .. | .sll .. | .slt .. | .sltu .. | .xor .. | .srl .. | .sra .. | .or .. | .and .. => true
  | .addiw .. | .slliw .. | .srliw .. | .sraiw .. => true
  | .addw .. | .subw .. | .sllw .. | .srlw .. | .sraw .. => true
  | .fence | .ecall | .ebreak => true

/-- The instructions the decoder can return at width `wd` with extensions `exts` enabled: the extension is enabled
(30_encoding.md R93), the instruction exists at the width, its offset is one the encoding admits. -/
def Instr.wellFormed (wd : Width) (exts : List Extension) (i : Instr) : Bool :=
  exts.contains i.ext && i.fitsWidth wd && i.evenOffset

end Sys2Proof
end

