-- ==== Sys2Proof/Decode.lean ====
section
/-! DEFINITION. Decode.lean: fields and immediates of an instruction word (30_encoding.md R82 to R90), the opcode map
as rows of mask and match, pairwise disjoint (R94 to R104, opcode_table.json), the decoder (R91, R93), the encoder
(R105) and the typed-instruction record (R92). -/

namespace Sys2Proof

/-! ### Fields (R82) -/

/-- `n` bits of the word from bit `lo` up (00_scope.md R10). -/
def field (w : InsnWord) (lo n : Nat) : BitVec n := w.extractLsb' lo n

/-- `opcode = w[6:0]` (R82). -/
def opcodeF (w : InsnWord) : BitVec 7 := field w 0 7
/-- `rd = w[11:7]` (R82; the position is the spec's D4). -/
def rdF (w : InsnWord) : Reg := field w 7 5
/-- `funct3 = w[14:12]` (R82). -/
def funct3F (w : InsnWord) : BitVec 3 := field w 12 3
/-- `rs1 = w[19:15]` (R82; the position is the spec's D4). -/
def rs1F (w : InsnWord) : Reg := field w 15 5
/-- `rs2 = w[24:20]` (R82; the position is the spec's D4). -/
def rs2F (w : InsnWord) : Reg := field w 20 5
/-- `funct7 = w[31:25]` (R82). -/
def funct7F (w : InsnWord) : BitVec 7 := field w 25 7

/-! ### Immediates (R84 to R89) -/

/-- `sext_N` to `m` bits (00_scope.md R12). -/
def sext {n m : Nat} (v : BitVec n) : BitVec m := v.signExtend m

/-- `zext_N` to `m` bits (00_scope.md R12). -/
def zext {n m : Nat} (v : BitVec n) : BitVec m := v.setWidth m

/-- The bits of the I-immediate, `w[31:20]` (R84). -/
def bitsI (w : InsnWord) : BitVec 12 := field w 20 12

/-- The bits of the S-immediate, `w[31:25] ++ w[11:7]` (R85). -/
def bitsS (w : InsnWord) : BitVec 12 := field w 25 7 ++ field w 7 5

/-- The bits of the B-immediate, `w[31] ++ w[7] ++ w[30:25] ++ w[11:8] ++ 0` (R86). -/
def bitsB (w : InsnWord) : BitVec 13 := field w 31 1 ++ field w 7 1 ++ field w 25 6 ++ field w 8 4 ++ 0#1

/-- The upper 20 bits of the U-immediate, `w[31:12]` (R87). -/
def bitsU (w : InsnWord) : BitVec 20 := field w 12 20

/-- The bits of the J-immediate, `w[31] ++ w[19:12] ++ w[20] ++ w[30:21] ++ 0` (R88). -/
def bitsJ (w : InsnWord) : BitVec 21 := field w 31 1 ++ field w 12 8 ++ field w 20 1 ++ field w 21 10 ++ 0#1

/-- The 5-bit shift amount `w[24:20]` (R89). -/
def shamt5 (w : InsnWord) : BitVec 5 := field w 20 5

/-- The 6-bit shift amount `w[25:20]` (R89). -/
def shamt6 (w : InsnWord) : BitVec 6 := field w 20 6

/-- The U-immediate `sext_32(imm20 ++ 0x000)` as a value of `m` bits (R87). -/
def immU {m : Nat} (imm20 : BitVec 20) : BitVec m := sext (imm20 ++ 0#12)

/-! ### The opcode map -/

/-- One row of the opcode map: a word `w` selects it when `w & mask = pat`, at a width of `widths` (R94, section 4). -/
structure Row where
  ext : Extension
  widths : List Width
  mask : InsnWord
  pat : InsnWord
  build : InsnWord → Instr

/-- A word selects the row when `w & mask = match` (R94). -/
def Row.selects (r : Row) (w : InsnWord) : Bool := w &&& r.mask == r.pat

/-- The `xlen` of a row that applies at both widths. -/
def bothWidths : List Width := [.w32, .w64]

/-- A row of format R: opcode, funct3 and funct7 select (R83, R94, R101). -/
def rowR (e : Extension) (ws : List Width) (pat : InsnWord) (c : Reg → Reg → Reg → Instr) : Row :=
  ⟨e, ws, 0xfe00707f, pat, fun w => c (rdF w) (rs1F w) (rs2F w)⟩

/-- A row of format I: opcode and funct3 select (R83, R97, R99, R100). -/
def rowI (ws : List Width) (pat : InsnWord) (c : Reg → Reg → BitVec 12 → Instr) : Row :=
  ⟨.I, ws, 0x0000707f, pat, fun w => c (rdF w) (rs1F w) (bitsI w)⟩

/-- A row of format S (R83, R99). -/
def rowS (ws : List Width) (pat : InsnWord) (c : Reg → Reg → BitVec 12 → Instr) : Row :=
  ⟨.I, ws, 0x0000707f, pat, fun w => c (rs1F w) (rs2F w) (bitsS w)⟩

/-- A row of format B (R83, R98). -/
def rowB (ws : List Width) (pat : InsnWord) (c : Reg → Reg → BitVec 13 → Instr) : Row :=
  ⟨.I, ws, 0x0000707f, pat, fun w => c (rs1F w) (rs2F w) (bitsB w)⟩

/-- A row of format U: the opcode alone selects (R83, R96). -/
def rowU (ws : List Width) (pat : InsnWord) (c : Reg → BitVec 20 → Instr) : Row :=
  ⟨.I, ws, 0x0000007f, pat, fun w => c (rdF w) (bitsU w)⟩

/-- A row of format J: the opcode alone selects (R83, R97). -/
def rowJ (ws : List Width) (pat : InsnWord) (c : Reg → BitVec 21 → Instr) : Row :=
  ⟨.I, ws, 0x0000007f, pat, fun w => c (rdF w) (bitsJ w)⟩

/-- A shift-immediate row at W = 32: `w[25]` must be 0, five bits of shift amount (R89, R100). -/
def rowShift32 (pat : InsnWord) (c : Reg → Reg → BitVec 6 → Instr) : Row :=
  ⟨.I, [.w32], 0xfe00707f, pat, fun w => c (rdF w) (rs1F w) (zext (shamt5 w))⟩

/-- A shift-immediate row at W = 64: six bits of shift amount (R89, R100). -/
def rowShift64 (pat : InsnWord) (c : Reg → Reg → BitVec 6 → Instr) : Row :=
  ⟨.I, [.w64], 0xfc00707f, pat, fun w => c (rdF w) (rs1F w) (shamt6 w)⟩

/-- A word shift-immediate row, W = 64 only (R89, R102). -/
def rowShiftW (ws : List Width) (pat : InsnWord) (c : Reg → Reg → BitVec 5 → Instr) : Row :=
  ⟨.I, ws, 0xfe00707f, pat, fun w => c (rdF w) (rs1F w) (shamt5 w)⟩

/-- Extension M (R94). -/
def rowsM : List Row := [
  rowR .M bothWidths 0x02000033 .mul,
  rowR .M bothWidths 0x02001033 .mulh,
  rowR .M bothWidths 0x02002033 .mulhsu,
  rowR .M bothWidths 0x02003033 .mulhu,
  rowR .M bothWidths 0x02004033 .div,
  rowR .M bothWidths 0x02005033 .divu,
  rowR .M bothWidths 0x02006033 .rem,
  rowR .M bothWidths 0x02007033 .remu]

/-- Upper immediates and jumps (R96, R97). -/
def rowsUpper : List Row := [
  rowU bothWidths 0x00000037 .lui,
  rowU bothWidths 0x00000017 .auipc,
  rowJ bothWidths 0x0000006f .jal,
  rowI bothWidths 0x00000067 .jalr]

/-- Conditional branches (R98). -/
def rowsBranch : List Row := [
  rowB bothWidths 0x00000063 .beq,
  rowB bothWidths 0x00001063 .bne,
  rowB bothWidths 0x00004063 .blt,
  rowB bothWidths 0x00005063 .bge,
  rowB bothWidths 0x00006063 .bltu,
  rowB bothWidths 0x00007063 .bgeu]

/-- Loads and stores (R99). -/
def rowsLoadStore : List Row := [
  rowI bothWidths 0x00000003 .lb,
  rowI bothWidths 0x00001003 .lh,
  rowI bothWidths 0x00002003 .lw,
  rowI bothWidths 0x00004003 .lbu,
  rowI bothWidths 0x00005003 .lhu,
  rowI [.w64] 0x00006003 .lwu,
  rowI [.w64] 0x00003003 .ld,
  rowS bothWidths 0x00000023 .sb,
  rowS bothWidths 0x00001023 .sh,
  rowS bothWidths 0x00002023 .sw,
  rowS [.w64] 0x00003023 .sd]

/-- OP-IMM (R100); a shift has one row per width (R89). -/
def rowsImm : List Row := [
  rowI bothWidths 0x00000013 .addi,
  rowI bothWidths 0x00002013 .slti,
  rowI bothWidths 0x00003013 .sltiu,
  rowI bothWidths 0x00004013 .xori,
  rowI bothWidths 0x00006013 .ori,
  rowI bothWidths 0x00007013 .andi,
  rowShift32 0x00001013 .slli,
  rowShift64 0x00001013 .slli,
  rowShift32 0x00005013 .srli,
  rowShift64 0x00005013 .srli,
  rowShift32 0x40005013 .srai,
  rowShift64 0x40005013 .srai]

/-- OP (R101). -/
def rowsReg : List Row := [
  rowR .I bothWidths 0x00000033 .add,
  rowR .I bothWidths 0x40000033 .sub,
  rowR .I bothWidths 0x00001033 .sll,
  rowR .I bothWidths 0x00002033 .slt,
  rowR .I bothWidths 0x00003033 .sltu,
  rowR .I bothWidths 0x00004033 .xor,
  rowR .I bothWidths 0x00005033 .srl,
  rowR .I bothWidths 0x40005033 .sra,
  rowR .I bothWidths 0x00006033 .or,
  rowR .I bothWidths 0x00007033 .and]

/-- OP-IMM-32 and OP-32, W = 64 only (R102). -/
def rowsWord : List Row := [
  rowI [.w64] 0x0000001b .addiw,
  rowShiftW [.w64] 0x0000101b .slliw,
  rowShiftW [.w64] 0x0000501b .srliw,
  rowShiftW [.w64] 0x4000501b .sraiw,
  rowR .I [.w64] 0x0000003b .addw,
  rowR .I [.w64] 0x4000003b .subw,
  rowR .I [.w64] 0x0000103b .sllw,
  rowR .I [.w64] 0x0000503b .srlw,
  rowR .I [.w64] 0x4000503b .sraw]

/-- MISC-MEM and SYSTEM (R103). -/
def rowsSystem : List Row := [
  ⟨.I, bothWidths, 0x0000707f, 0x0000000f, fun _ => .fence⟩,
  ⟨.I, bothWidths, 0xffffffff, 0x00000073, fun _ => .ecall⟩,
  ⟨.I, bothWidths, 0xffffffff, 0x00100073, fun _ => .ebreak⟩]

/-- The opcode map: the 63 rows of opcode_table.json (section 4). -/
def opcodeMap : List Row :=
  rowsM ++ rowsUpper ++ rowsBranch ++ rowsLoadStore ++ rowsImm ++ rowsReg ++ rowsWord ++ rowsSystem

/-! ### Disjointness of the opcode map (R104) -/

/-- Two rows are disjoint: they differ in a bit that both masks cover (R104). -/
abbrev Row.disjoint (r q : Row) : Prop := r.pat &&& q.mask ≠ q.pat &&& r.mask

/-- The rows of the opcode map that apply at a width (R104). -/
abbrev opcodeMapAt (wd : Width) : List Row := opcodeMap.filter (fun r => r.widths.contains wd)

/-- No word selects two rows at this width: every two rows that apply there differ in a bit both masks cover (R104). -/
abbrev opcodeMapDisjoint (wd : Width) : Prop := (opcodeMapAt wd).Pairwise Row.disjoint

/-- The check over all row pairs that the spec made when it generated the table, made on the model's map (R104). -/
theorem opcodeMap_disjoint (wd : Width) : opcodeMapDisjoint wd := by
  cases wd <;> decide

/-! ### The decoder -/

/-- The row belongs to extension `e` and applies at width `wd`. -/
def Row.applies (wd : Width) (e : Extension) (r : Row) : Bool := r.ext == e && r.widths.contains wd

/-- The decode function of one extension: a typed instruction or not recognised; pure (R91, R94, R95). -/
def decodeExt (wd : Width) (e : Extension) (w : InsnWord) : Option Instr :=
  (opcodeMap.find? (fun r => r.applies wd e && r.selects w)).map (fun r => r.build w)

/-- The extensions whose decoder recognises the word: at most one, for no word is recognised by both (R104). -/
def recognisers (wd : Width) (w : InsnWord) : List Extension :=
  [Extension.I, Extension.M].filter (fun e => (decodeExt wd e w).isSome)

/-- The aggregate decoder: the first extension, in the priority order of `exts`, that recognises the word (R93);
the order is immaterial (R104). -/
def decode (wd : Width) (exts : List Extension) (w : InsnWord) : Option Instr :=
  exts.findSome? (fun e => decodeExt wd e w)

/-- Why a list of bytes is no instruction. -/
inductive DecodeReject where
  /-- No enabled extension recognises the word: the step raises DecodeError (R93, R106). -/
  | notRecognised (word : InsnWord)
  /-- Not the four bytes of an instruction (R80); the step never passes such a list. -/
  | notFourBytes (length : Nat)
  deriving DecidableEq, Repr

/-- The word of four bytes, least significant byte first (R81). -/
def wordOfBytes : List Byte → Option InsnWord
  | [b0, b1, b2, b3] => some (b3 ++ b2 ++ b1 ++ b0)
  | [] | [_] | [_, _] | [_, _, _] | _ :: _ :: _ :: _ :: _ :: _ => none

/-- The four bytes of a word as memory holds them, least significant byte first (R81). -/
def bytesOfWord (w : InsnWord) : List Byte := [field w 0 8, field w 8 8, field w 16 8, field w 24 8]

/-- Decoding, total on any bytes, rejecting by name (R80, R81, R93). -/
def decodeBytes (wd : Width) (exts : List Extension) (bs : List Byte) : Except DecodeReject Instr :=
  match wordOfBytes bs with
  | none => .error (.notFourBytes bs.length)
  | some w =>
    match decode wd exts w with
    | none => .error (.notRecognised w)
    | some i => .ok i

/-! ### The encoder (R105) -/

/-- A field put at bit `lo` of a word. -/
def place {n : Nat} (lo : Nat) (v : BitVec n) : InsnWord := v.setWidth 32 <<< lo

/-- Format R: the row's match or-ed with the fields (R83, R105). -/
def encR (pat : InsnWord) (rd rs1 rs2 : Reg) : InsnWord := pat ||| place 7 rd ||| place 15 rs1 ||| place 20 rs2

/-- Format I (R83, R84). -/
def encI (pat : InsnWord) (rd rs1 : Reg) (imm : BitVec 12) : InsnWord :=
  pat ||| place 7 rd ||| place 15 rs1 ||| place 20 imm

/-- Format S (R83, R85). -/
def encS (pat : InsnWord) (rs1 rs2 : Reg) (imm : BitVec 12) : InsnWord :=
  pat ||| place 15 rs1 ||| place 20 rs2 ||| place 7 (imm.extractLsb' 0 5) ||| place 25 (imm.extractLsb' 5 7)

/-- Format B: `w[31] = imm[12]`, `w[30:25] = imm[10:5]`, `w[11:8] = imm[4:1]`, `w[7] = imm[11]` (R83, R86). -/
def encB (pat : InsnWord) (rs1 rs2 : Reg) (imm : BitVec 13) : InsnWord :=
  pat ||| place 15 rs1 ||| place 20 rs2 ||| place 31 (imm.extractLsb' 12 1) ||| place 25 (imm.extractLsb' 5 6) |||
    place 8 (imm.extractLsb' 1 4) ||| place 7 (imm.extractLsb' 11 1)

/-- Format U (R83, R87). -/
def encU (pat : InsnWord) (rd : Reg) (imm20 : BitVec 20) : InsnWord := pat ||| place 7 rd ||| place 12 imm20

/-- Format J: `w[31] = imm[20]`, `w[30:21] = imm[10:1]`, `w[20] = imm[11]`, `w[19:12] = imm[19:12]` (R83, R88). -/
def encJ (pat : InsnWord) (rd : Reg) (imm : BitVec 21) : InsnWord :=
  pat ||| place 7 rd ||| place 31 (imm.extractLsb' 20 1) ||| place 21 (imm.extractLsb' 1 10) |||
    place 20 (imm.extractLsb' 11 1) ||| place 12 (imm.extractLsb' 12 8)

/-- A shift by an immediate amount (R83, R89). -/
def encShift {n : Nat} (pat : InsnWord) (rd rs1 : Reg) (shamt : BitVec n) : InsnWord :=
  pat ||| place 7 rd ||| place 15 rs1 ||| place 20 shamt

/-- The word of an instruction: its row's match or-ed with its fields (R105). FENCE's ignored fields are 0. -/
def encode : Instr → InsnWord
  | .mul rd rs1 rs2 => encR 0x02000033 rd rs1 rs2
  | .mulh rd rs1 rs2 => encR 0x02001033 rd rs1 rs2
  | .mulhsu rd rs1 rs2 => encR 0x02002033 rd rs1 rs2
  | .mulhu rd rs1 rs2 => encR 0x02003033 rd rs1 rs2
  | .div rd rs1 rs2 => encR 0x02004033 rd rs1 rs2
  | .divu rd rs1 rs2 => encR 0x02005033 rd rs1 rs2
  | .rem rd rs1 rs2 => encR 0x02006033 rd rs1 rs2
  | .remu rd rs1 rs2 => encR 0x02007033 rd rs1 rs2
  | .lui rd imm20 => encU 0x00000037 rd imm20
  | .auipc rd imm20 => encU 0x00000017 rd imm20
  | .jal rd off => encJ 0x0000006f rd off
  | .jalr rd rs1 imm => encI 0x00000067 rd rs1 imm
  | .beq rs1 rs2 off => encB 0x00000063 rs1 rs2 off
  | .bne rs1 rs2 off => encB 0x00001063 rs1 rs2 off
  | .blt rs1 rs2 off => encB 0x00004063 rs1 rs2 off
  | .bge rs1 rs2 off => encB 0x00005063 rs1 rs2 off
  | .bltu rs1 rs2 off => encB 0x00006063 rs1 rs2 off
  | .bgeu rs1 rs2 off => encB 0x00007063 rs1 rs2 off
  | .lb rd rs1 imm => encI 0x00000003 rd rs1 imm
  | .lh rd rs1 imm => encI 0x00001003 rd rs1 imm
  | .lw rd rs1 imm => encI 0x00002003 rd rs1 imm
  | .lbu rd rs1 imm => encI 0x00004003 rd rs1 imm
  | .lhu rd rs1 imm => encI 0x00005003 rd rs1 imm
  | .lwu rd rs1 imm => encI 0x00006003 rd rs1 imm
  | .ld rd rs1 imm => encI 0x00003003 rd rs1 imm
  | .sb rs1 rs2 imm => encS 0x00000023 rs1 rs2 imm
  | .sh rs1 rs2 imm => encS 0x00001023 rs1 rs2 imm
  | .sw rs1 rs2 imm => encS 0x00002023 rs1 rs2 imm
  | .sd rs1 rs2 imm => encS 0x00003023 rs1 rs2 imm
  | .addi rd rs1 imm => encI 0x00000013 rd rs1 imm
  | .slti rd rs1 imm => encI 0x00002013 rd rs1 imm
  | .sltiu rd rs1 imm => encI 0x00003013 rd rs1 imm
  | .xori rd rs1 imm => encI 0x00004013 rd rs1 imm
  | .ori rd rs1 imm => encI 0x00006013 rd rs1 imm
  | .andi rd rs1 imm => encI 0x00007013 rd rs1 imm
  | .slli rd rs1 amt => encShift 0x00001013 rd rs1 amt
  | .srli rd rs1 amt => encShift 0x00005013 rd rs1 amt
  | .srai rd rs1 amt => encShift 0x40005013 rd rs1 amt
  | .add rd rs1 rs2 => encR 0x00000033 rd rs1 rs2
  | .sub rd rs1 rs2 => encR 0x40000033 rd rs1 rs2
  | .sll rd rs1 rs2 => encR 0x00001033 rd rs1 rs2
  | .slt rd rs1 rs2 => encR 0x00002033 rd rs1 rs2
  | .sltu rd rs1 rs2 => encR 0x00003033 rd rs1 rs2
  | .xor rd rs1 rs2 => encR 0x00004033 rd rs1 rs2
  | .srl rd rs1 rs2 => encR 0x00005033 rd rs1 rs2
  | .sra rd rs1 rs2 => encR 0x40005033 rd rs1 rs2
  | .or rd rs1 rs2 => encR 0x00006033 rd rs1 rs2
  | .and rd rs1 rs2 => encR 0x00007033 rd rs1 rs2
  | .addiw rd rs1 imm => encI 0x0000001b rd rs1 imm
  | .slliw rd rs1 amt => encShift 0x0000101b rd rs1 amt
  | .srliw rd rs1 amt => encShift 0x0000501b rd rs1 amt
  | .sraiw rd rs1 amt => encShift 0x4000501b rd rs1 amt
  | .addw rd rs1 rs2 => encR 0x0000003b rd rs1 rs2
  | .subw rd rs1 rs2 => encR 0x4000003b rd rs1 rs2
  | .sllw rd rs1 rs2 => encR 0x0000103b rd rs1 rs2
  | .srlw rd rs1 rs2 => encR 0x0000503b rd rs1 rs2
  | .sraw rd rs1 rs2 => encR 0x4000503b rd rs1 rs2
  | .fence => 0x0000000f
  | .ecall => 0x00000073
  | .ebreak => 0x00100073

/-! ### The typed-instruction record (R92) -/

/-- The record `(ext, op, rd, rs1, rs2, imm)`; a field the format does not have is 0 (R92). -/
structure TypedInstr (w : Nat) where
  ext : Extension
  op : String
  rd : Reg
  rs1 : Reg
  rs2 : Reg
  imm : BitVec w
  deriving DecidableEq, Repr

/-- What an instruction carries, as the record of R92 with its W-bit immediate (R84 to R89, R92). -/
def Instr.typed {w : Nat} : Instr → TypedInstr w
  | .mul rd rs1 rs2 => ⟨.M, "MUL", rd, rs1, rs2, 0⟩
  | .mulh rd rs1 rs2 => ⟨.M, "MULH", rd, rs1, rs2, 0⟩
  | .mulhsu rd rs1 rs2 => ⟨.M, "MULHSU", rd, rs1, rs2, 0⟩
  | .mulhu rd rs1 rs2 => ⟨.M, "MULHU", rd, rs1, rs2, 0⟩
  | .div rd rs1 rs2 => ⟨.M, "DIV", rd, rs1, rs2, 0⟩
  | .divu rd rs1 rs2 => ⟨.M, "DIVU", rd, rs1, rs2, 0⟩
  | .rem rd rs1 rs2 => ⟨.M, "REM", rd, rs1, rs2, 0⟩
  | .remu rd rs1 rs2 => ⟨.M, "REMU", rd, rs1, rs2, 0⟩
  | .lui rd imm20 => ⟨.I, "LUI", rd, 0, 0, immU imm20⟩
  | .auipc rd imm20 => ⟨.I, "AUIPC", rd, 0, 0, immU imm20⟩
  | .jal rd off => ⟨.I, "JAL", rd, 0, 0, sext off⟩
  | .jalr rd rs1 imm => ⟨.I, "JALR", rd, rs1, 0, sext imm⟩
  | .beq rs1 rs2 off => ⟨.I, "BEQ", 0, rs1, rs2, sext off⟩
  | .bne rs1 rs2 off => ⟨.I, "BNE", 0, rs1, rs2, sext off⟩
  | .blt rs1 rs2 off => ⟨.I, "BLT", 0, rs1, rs2, sext off⟩
  | .bge rs1 rs2 off => ⟨.I, "BGE", 0, rs1, rs2, sext off⟩
  | .bltu rs1 rs2 off => ⟨.I, "BLTU", 0, rs1, rs2, sext off⟩
  | .bgeu rs1 rs2 off => ⟨.I, "BGEU", 0, rs1, rs2, sext off⟩
  | .lb rd rs1 imm => ⟨.I, "LB", rd, rs1, 0, sext imm⟩
  | .lh rd rs1 imm => ⟨.I, "LH", rd, rs1, 0, sext imm⟩
  | .lw rd rs1 imm => ⟨.I, "LW", rd, rs1, 0, sext imm⟩
  | .lbu rd rs1 imm => ⟨.I, "LBU", rd, rs1, 0, sext imm⟩
  | .lhu rd rs1 imm => ⟨.I, "LHU", rd, rs1, 0, sext imm⟩
  | .lwu rd rs1 imm => ⟨.I, "LWU", rd, rs1, 0, sext imm⟩
  | .ld rd rs1 imm => ⟨.I, "LD", rd, rs1, 0, sext imm⟩
  | .sb rs1 rs2 imm => ⟨.I, "SB", 0, rs1, rs2, sext imm⟩
  | .sh rs1 rs2 imm => ⟨.I, "SH", 0, rs1, rs2, sext imm⟩
  | .sw rs1 rs2 imm => ⟨.I, "SW", 0, rs1, rs2, sext imm⟩
  | .sd rs1 rs2 imm => ⟨.I, "SD", 0, rs1, rs2, sext imm⟩
  | .addi rd rs1 imm => ⟨.I, "ADDI", rd, rs1, 0, sext imm⟩
  | .slti rd rs1 imm => ⟨.I, "SLTI", rd, rs1, 0, sext imm⟩
  | .sltiu rd rs1 imm => ⟨.I, "SLTIU", rd, rs1, 0, sext imm⟩
  | .xori rd rs1 imm => ⟨.I, "XORI", rd, rs1, 0, sext imm⟩
  | .ori rd rs1 imm => ⟨.I, "ORI", rd, rs1, 0, sext imm⟩
  | .andi rd rs1 imm => ⟨.I, "ANDI", rd, rs1, 0, sext imm⟩
  | .slli rd rs1 amt => ⟨.I, "SLLI", rd, rs1, 0, zext amt⟩
  | .srli rd rs1 amt => ⟨.I, "SRLI", rd, rs1, 0, zext amt⟩
  | .srai rd rs1 amt => ⟨.I, "SRAI", rd, rs1, 0, zext amt⟩
  | .add rd rs1 rs2 => ⟨.I, "ADD", rd, rs1, rs2, 0⟩
  | .sub rd rs1 rs2 => ⟨.I, "SUB", rd, rs1, rs2, 0⟩
  | .sll rd rs1 rs2 => ⟨.I, "SLL", rd, rs1, rs2, 0⟩
  | .slt rd rs1 rs2 => ⟨.I, "SLT", rd, rs1, rs2, 0⟩
  | .sltu rd rs1 rs2 => ⟨.I, "SLTU", rd, rs1, rs2, 0⟩
  | .xor rd rs1 rs2 => ⟨.I, "XOR", rd, rs1, rs2, 0⟩
  | .srl rd rs1 rs2 => ⟨.I, "SRL", rd, rs1, rs2, 0⟩
  | .sra rd rs1 rs2 => ⟨.I, "SRA", rd, rs1, rs2, 0⟩
  | .or rd rs1 rs2 => ⟨.I, "OR", rd, rs1, rs2, 0⟩
  | .and rd rs1 rs2 => ⟨.I, "AND", rd, rs1, rs2, 0⟩
  | .addiw rd rs1 imm => ⟨.I, "ADDIW", rd, rs1, 0, sext imm⟩
  | .slliw rd rs1 amt => ⟨.I, "SLLIW", rd, rs1, 0, zext amt⟩
  | .srliw rd rs1 amt => ⟨.I, "SRLIW", rd, rs1, 0, zext amt⟩
  | .sraiw rd rs1 amt => ⟨.I, "SRAIW", rd, rs1, 0, zext amt⟩
  | .addw rd rs1 rs2 => ⟨.I, "ADDW", rd, rs1, rs2, 0⟩
  | .subw rd rs1 rs2 => ⟨.I, "SUBW", rd, rs1, rs2, 0⟩
  | .sllw rd rs1 rs2 => ⟨.I, "SLLW", rd, rs1, rs2, 0⟩
  | .srlw rd rs1 rs2 => ⟨.I, "SRLW", rd, rs1, rs2, 0⟩
  | .sraw rd rs1 rs2 => ⟨.I, "SRAW", rd, rs1, rs2, 0⟩
  | .fence => ⟨.I, "FENCE", 0, 0, 0, 0⟩
  | .ecall => ⟨.I, "ECALL", 0, 0, 0, 0⟩
  | .ebreak => ⟨.I, "EBREAK", 0, 0, 0, 0⟩

/-! ### The host's question about a row of the table -/

/-- The instruction the decoder reads from an instruction whose bits are `w`, numbered as opcode_table.json numbers
them, at W = 64 with EXTENSIONS = [I, M] (log 10): the four bytes, least significant first (R81), given to the
decoder. -/
def decodeTableWord (nbits w : Nat) : Option Instr :=
  (decodeBytes .w64 [.I, .M] (bytesOfWord (BitVec.ofNat 32 (w % 2 ^ nbits)))).toOption

end Sys2Proof
end

