-- ==== Sys2Proof/Config.lean ====
section
/-! DEFINITION. Config.lean: the configuration parameters of 00_scope.md R9 that a rule reads, as plain data, and the
two that no rule reads, as constants without a body. RESET_PC, BUDGET and MEM_INIT are read at reset only and stand
in `Machine.ResetParams`. -/

namespace Sys2Proof

/-- The parameters fixed for the life of a machine instance (00_scope.md R8, R9). DESIGN CHOICE (log 2): State carries
them, so that every claim is about every value of them. -/
structure Config where
  /-- `W` (R8). -/
  width : Width
  /-- `EXTENSIONS`, in decoder priority order (R9, 30_encoding.md R93). -/
  extensions : List Extension
  /-- `MEM_SIZE` in bytes (R9, 20_memory.md R50). -/
  memSize : Nat
  /-- `COST` as plain data: what an instruction costs above 1; an instruction not listed costs 1 (log 3). -/
  surcharge : List (Instr × Nat)
  deriving DecidableEq, Repr

/-- `MEM_SIZE <= 2^W` (00_scope.md R9, 20_memory.md R50). -/
abbrev Config.wf (c : Config) : Prop := c.memSize ≤ 2 ^ c.width.bits

/-- The amount a cost table adds to an instruction's cost of 1; the first entry counts (log 3). -/
def surchargeOf : List (Instr × Nat) → Instr → Nat
  | [], _ => 0
  | (j, n) :: rest, i => if j = i then n else surchargeOf rest i

/-- `COST(i)`, a function of the typed instruction alone with every value at least 1 (00_scope.md R9, 40_dispatch.md
R127). -/
def Config.cost (c : Config) (i : Instr) : Nat := 1 + surchargeOf c.surcharge i

/-- DESIGN CHOICE (log 1, log 4): the spec's reference instance of 95_test_vectors.md section 1 (EXTENSIONS = [I, M],
COST = 1, MEM_SIZE = 0x1000), at W = 64, the width at which every row of the opcode table is recognised. -/
def Config.reference : Config where
  width := .w64
  extensions := [.I, .M]
  memSize := 0x1000
  surcharge := []

/-- The four reason codes of the accelerated path, by name (60_exceptions.md R306). -/
inductive ReasonName where
  | decodeTraceMiss
  | environmentCall
  | breakpoint
  | cycleBudgetExceeded
  deriving DecidableEq, Repr

/-- `REASON_CODE`: OPEN, read by no rule (00_scope.md R9, 60_exceptions.md R306; log 17). -/
opaque Config.reasonCode : ReasonName → Int

/-- `OPCODE_ID`, of a mnemonic: OPEN, read by no rule (00_scope.md R9; log 17). -/
opaque Config.opcodeId : String → Int

end Sys2Proof
end

