-- ==== Sys2Proof/Machine/State.lean ====
section
/-! DEFINITION. Machine/State.lean: the machine state of 10_state.md R20 as plain data, the reasons a step can stop
(60_exceptions.md R300), and the state after reset (70_reset_and_hazards.md R340). -/

namespace Sys2Proof.Machine

/-- What an access is for, as a MemoryFault records it (20_memory.md R51, 60_exceptions.md R302). -/
inductive AccessKind where
  | fetch
  | load
  | store
  deriving DecidableEq, Repr

/-- The cooperative signals (60_exceptions.md R304, R305, R308). -/
inductive Signal where
  | environmentCall
  | breakpoint
  deriving DecidableEq, Repr

/-- A store event on the memory interface: the address and the size of a successful store (20_memory.md R62). -/
structure StoreEvent where
  addr : Nat
  size : Nat
  deriving DecidableEq, Repr

/-- Memory: the bytes that differ from what an unlisted address reads as, by strictly rising address (`Memory.wf` in
Ops.lean; log 6). -/
abbrev Memory := List Host.Cell

/-- The machine state at register width `w` (10_state.md R20) and the two outputs of the last step (log 7). -/
structure Arch (w : Nat) where
  /-- `x[1]` to `x[31]`; `x[0]` is a constant and is not stored (R21, R22). -/
  regs : Vector (BitVec w) 31
  /-- The program counter (R24). -/
  pc : BitVec w
  /-- The charged cost of all completed instructions since reset (R27). -/
  cycles : BitVec 64
  /-- The cycle budget (R28). -/
  budget : BitVec 64
  /-- The one memory, for fetch and data (R32; 20_memory.md R50). -/
  mem : Memory
  /-- Output: the signal of the last completed instruction, none for an outcome `Next` (60_exceptions.md R308; log 7). -/
  signal : Option Signal
  /-- Output: the store event of the last completed instruction (20_memory.md R62; log 7). -/
  storeEvent : Option StoreEvent
  deriving DecidableEq, Repr

/-- A machine instance: its configuration parameters (00_scope.md R9; log 2) and its state at their register width. -/
structure State where
  cfg : Config
  arch : Arch cfg.width.bits
  deriving DecidableEq, Repr

/-- The register width of an instance, in bits (00_scope.md R8). -/
abbrev State.W (s : State) : Nat := s.cfg.width.bits

/-- Why a step ends without completing an instruction (60_exceptions.md R300). In all three the state is the state at
the start of the step (R307, 40_dispatch.md R125), which the host still holds (log 8). Safe: the spec ends the step
here too. -/
inductive Fault where
  /-- DecodeError: the fetched word is recognised by no enabled extension (R301). Raised by the step, and by a meaning
  given an instruction that does not exist at the instance's width (log 9). Safe. -/
  | decodeError (word : InsnWord)
  /-- MemoryFault: an access that is out of bounds (R302), with its address, size and kind. Raised by the fetch, the
  loads and the stores. Safe. -/
  | memoryFault (addr size : Nat) (kind : AccessKind)
  /-- CycleBudgetExceeded: the controlled halt, before the instruction at `pc` is executed (R303). Raised by the step.
  Safe. -/
  | cycleBudgetExceeded
  deriving DecidableEq, Repr

/-- Why an instruction has no meaning in the model. -/
inductive Refusal where
  /-- An instruction the model gives no meaning, by its mnemonic. Raised by no arm: every instruction has its meaning.
  Safe. -/
  | notModelled (mnemonic : String)
  deriving DecidableEq, Repr

/-- What the host passes at reset (00_scope.md R9, 70_reset_and_hazards.md R340). -/
structure ResetParams (w : Nat) where
  resetPc : BitVec w
  budget : BitVec 64
  memInit : Memory
  deriving DecidableEq, Repr

/-- The state after reset: registers and `cycles` zero, `pc`, `budget` and memory as the host passes them
(70_reset_and_hazards.md R340 to R343). The outputs are empty (log 7). -/
def State.resetWith (c : Config) (p : ResetParams c.width.bits) : State where
  cfg := c
  arch := {
    regs := Vector.replicate 31 0
    pc := p.resetPc
    cycles := 0
    budget := p.budget
    mem := p.memInit
    signal := none
    storeEvent := none }

/-- The state after reset of the reference instance: pc 0x100, budget 10^9, every byte 0. DESIGN CHOICE (log 1, log 4):
the spec leaves these parameters OPEN and uses these values for its vectors (95_test_vectors.md section 1). -/
def State.reset : State :=
  State.resetWith Config.reference { resetPc := 0x100#64, budget := 1000000000, memInit := [] }

end Sys2Proof.Machine
end

