-- ==== Sys2Proof/Machine/Ops.lean ====
section
/-! DEFINITION. Machine/Ops.lean: the named operations over memory, registers and the step: memory access
(20_memory.md), the register file (10_state.md R21, R22), the effects of an instruction and their commit
(40_dispatch.md R120), raising and signalling (60_exceptions.md R307, R308), fetch, budget check and charge. -/

namespace Sys2Proof.Machine

/-- What executing an instruction, or a step, answers. -/
abbrev Result := Host.Outcome State Fault Refusal

/-! ### Memory (20_memory.md) -/

/-- What a byte of memory that is not listed reads as. DESIGN CHOICE (log 6): MEM_INIT is OPEN; bytes not listed are 0
as in the spec's vectors. -/
def Memory.blank : Byte := 0

/-- The canonical form: addresses strictly rising, no entry equal to what an unlisted address reads as (log 6). -/
abbrev Memory.wf (m : Memory) : Prop := m.Pairwise (fun a b => a.1 < b.1) ∧ ∀ c ∈ m, c.2 ≠ Memory.blank

/-- Every listed byte lies in the extent `[0, memSize)` (R50). -/
abbrev Memory.within (m : Memory) (memSize : Nat) : Prop := ∀ c ∈ m, c.1 < memSize

/-- `mem[a]` (R50). -/
def Memory.read : Memory → Nat → Byte
  | [], _ => Memory.blank
  | (k, b) :: m, a => if k = a then b else Memory.read m a

/-- The entry `(a, v)` put in its place among rising addresses, in the place of an entry for `a` (log 6). -/
def Memory.put : Memory → Nat → Byte → Memory
  | [], a, v => [(a, v)]
  | (k, b) :: m, a, v =>
    if a < k then (a, v) :: (k, b) :: m
    else if a = k then (a, v) :: m
    else (k, b) :: Memory.put m a v

/-- `mem[a] := v`, keeping the canonical form: a byte that reads as an unlisted one is not listed (R50; log 6). -/
def Memory.write (m : Memory) (a : Nat) (v : Byte) : Memory :=
  if v = Memory.blank then m.filter (fun c => c.1 ≠ a) else m.put a v

/-- `n` bytes from `a` as a natural number, the byte at the lowest address least significant (R53). -/
def Memory.readLE (m : Memory) (a : Nat) : Nat → Nat
  | 0 => 0
  | n + 1 => (m.read a).toNat + 256 * Memory.readLE m (a + 1) n

/-- The low `n` bytes of `v` written from `a` on, least significant first (R54). -/
def Memory.writeLE (m : Memory) (a : Nat) : Nat → Nat → Memory
  | 0, _ => m
  | n + 1, v => Memory.writeLE (m.write a (BitVec.ofNat 8 v)) (a + 1) n (v / 256)

/-- An access of `n` bytes at `a` is in bounds: `a + n <= MEM_SIZE` in unbounded arithmetic (R51). -/
def inBounds (memSize a n : Nat) : Bool := decide (a + n ≤ memSize)

/-! ### Registers (10_state.md R21, R22) -/

theorem Reg.index_lt (r : Reg) : r.toNat - 1 < 31 := by
  have := r.isLt
  omega

/-- `x[i]`: 0 for register 0, else the stored value (R22). -/
def Arch.x {w : Nat} (c : Arch w) (r : Reg) : BitVec w :=
  if r = 0 then 0 else c.regs[r.toNat - 1]'(Reg.index_lt r)

/-- `x[i] <- v`: a write to register 0 is discarded (R22). -/
def Arch.setX {w : Nat} (c : Arch w) (r : Reg) (v : BitVec w) : Arch w :=
  if r = 0 then c else { c with regs := c.regs.set (r.toNat - 1) v (Reg.index_lt r) }

/-- `x[i]` of an instance (R21, R22). -/
def State.x (s : State) (r : Reg) : BitVec s.W := s.arch.x r

/-- `pc` of an instance (R24). -/
def State.pc (s : State) : BitVec s.W := s.arch.pc

/-! ### The effects of an instruction and their commit (40_dispatch.md R120) -/

/-- The single memory write of an instruction: address, size in bytes, value (R120). -/
structure MemWrite where
  addr : Nat
  size : Nat
  value : Nat
  deriving DecidableEq, Repr

/-- What executing an instruction yields: at most one register write, at most one memory write, an optional explicit
next pc and an optional signal (R120 stage 4). -/
structure Effects (w : Nat) where
  reg : Option (Reg × BitVec w) := none
  mem : Option MemWrite := none
  nextPc : Option (BitVec w) := none
  signal : Option Signal := none
  deriving DecidableEq, Repr

/-- The register write of an instruction, discarded when `rd = 0` (R120 stage 5, R132). -/
def Arch.commitReg {w : Nat} (c : Arch w) : Option (Reg × BitVec w) → Arch w
  | none => c
  | some (rd, v) => c.setX rd v

/-- The memory after an instruction's memory write (R120 stage 5, R132). -/
def Memory.commit (m : Memory) : Option MemWrite → Memory
  | none => m
  | some a => m.writeLE a.addr a.size a.value

/-- Commit, less the cycle charge: apply the effects, set `pc` to the explicit next pc or to `wrap_W(pc + 4)`, put out
the signal and the store event (R120 stage 5, R124, R132). The charge is the step's (R127; log 21). -/
def Arch.commit {w : Nat} (c : Arch w) (e : Effects w) : Arch w :=
  { c.commitReg e.reg with
    pc := e.nextPc.getD (c.pc + 4)
    mem := c.mem.commit e.mem
    signal := e.signal
    storeEvent := e.mem.map fun a => ⟨a.addr, a.size⟩ }

/-- Commit on an instance; the configuration does not change (R8). -/
def State.commit (s : State) (e : Effects s.W) : State := { cfg := s.cfg, arch := s.arch.commit e }

/-- The instruction completes with these effects (R120 stage 5, R308). -/
def State.finish (s : State) (e : Effects s.W) : Result := .next (s.commit e)

/-! ### Raising (60_exceptions.md R307) -/

/-- `raise E(info)`: the instruction is abandoned, nothing is saved because nothing was changed, control goes to the
host with the typed outcome; there is no vector, no handler and no return instruction (R307, R312; log 8). -/
def raise (f : Fault) : Result := .fault f

/-- An instruction that does not exist at the instance's width is an illegal word there: DecodeError of its word
(30_encoding.md R99, R102, R109, R111; log 9). -/
def State.whenLegal (s : State) (i : Instr) (r : Result) : Result :=
  if i.fitsWidth s.cfg.width then r else raise (.decodeError (encode i))

/-! ### Memory access of an instance (20_memory.md R51, R53, R54) -/

/-- `MemRead(a, n)` for an access of kind `k` (R53). -/
def State.memRead (s : State) (a : BitVec s.W) (n : Nat) (k : AccessKind) : Except Fault Nat :=
  if inBounds s.cfg.memSize a.toNat n then .ok (s.arch.mem.readLE a.toNat n)
  else .error (.memoryFault a.toNat n k)

/-- The bounds test of `MemWrite(a, n, v)`; the bytes are written at the commit (R54, 40_dispatch.md R132). -/
def State.memWrite (s : State) (a : BitVec s.W) (n v : Nat) : Except Fault MemWrite :=
  if inBounds s.cfg.memSize a.toNat n then .ok ⟨a.toNat, n, v⟩ else .error (.memoryFault a.toNat n .store)

/-! ### The stages of the step around the execution (40_dispatch.md R121, R126, R127) -/

/-- Fetch: the four bytes at `pc`, little-endian, at any alignment (R121, 20_memory.md R60). -/
def State.fetch (s : State) : Except Fault InsnWord :=
  match s.memRead s.pc 4 .fetch with
  | .error f => .error f
  | .ok v => .ok (BitVec.ofNat 32 v)

/-- Decode by the instance's width and extensions (R122, 30_encoding.md R93). -/
def State.decoded (s : State) (w : InsnWord) : Except Fault Instr :=
  match decode s.cfg.width s.cfg.extensions w with
  | none => .error (.decodeError w)
  | some i => .ok i

/-- The budget check: `cycles + COST(i) > budget`, in unbounded arithmetic (R126). -/
def State.overBudget (s : State) (i : Instr) : Bool :=
  decide (s.arch.budget.toNat < s.arch.cycles.toNat + s.cfg.cost i)

/-- The charge of a completed instruction: `cycles := cycles + COST(i)` (R127). -/
def State.charge (s : State) (i : Instr) : State :=
  { s with arch := { s.arch with cycles := BitVec.ofNat 64 (s.arch.cycles.toNat + s.cfg.cost i) } }

/-- A completed instruction is charged, one that faults is not (R127). -/
def Result.charged (i : Instr) : Result → Result
  | .next t => .next (t.charge i)
  | .fault f => .fault f
  | .refused r => .refused r

/-- The word's four bytes stored at `pc`, where the step fetches (R121, R81); the loader's act of 70_reset_and_hazards.md
R344 (b) for one word. -/
def State.placeWord (s : State) (w : InsnWord) : State :=
  { s with arch := { s.arch with mem := s.arch.mem.writeLE s.arch.pc.toNat 4 w.toNat } }

end Sys2Proof.Machine
end

