-- ==== Sys2Proof/Machine/Operands.lean ====
section
/-! DEFINITION. Machine/Operands.lean: the operand forms of the instructions: sign-extended immediates, shift
amounts, low words, the one addressing mode, and the shared shapes an instruction's meaning is written with. -/

namespace Sys2Proof.Machine

/-! ### Operand forms -/

/-- The W-bit value of a sign-extended immediate or offset (30_encoding.md R84, R85, R86, R88). -/
def State.imm {n : Nat} (s : State) (v : BitVec n) : BitVec s.W := sext v

/-- The W-bit upper immediate (30_encoding.md R87). -/
def State.immU (s : State) (imm20 : BitVec 20) : BitVec s.W := Sys2Proof.immU imm20

/-- The shift amount of a register shift: `b[4:0]` at W = 32, `b[5:0]` at W = 64 (42_base_alu.md section 4). -/
def State.shiftAmount (s : State) (b : BitVec s.W) : Nat := (b.extractLsb' 0 s.cfg.width.shamtBits).toNat

/-- `a[31:0]` (42_base_alu.md section 5). -/
def low32 {w : Nat} (a : BitVec w) : BitVec 32 := a.extractLsb' 0 32

/-- The shift amount of a word shift: `b[4:0]` (42_base_alu.md R187 to R189). -/
def wordShiftAmount {w : Nat} (b : BitVec w) : Nat := (b.extractLsb' 0 5).toNat

/-- The effective address `wrap_W(x[rs1] + imm)` (43_base_loadstore.md R221). -/
def State.effAddr (s : State) (rs1 : Reg) (imm : BitVec 12) : BitVec s.W := s.x rs1 + s.imm imm

/-! ### Shapes -/

/-- `x[rd] <- v` and no explicit pc change (42_base_alu.md R190, 41_m_arith.md R140). -/
def State.writes (s : State) (rd : Reg) (v : BitVec s.W) : Result := s.finish { reg := some (rd, v) }

/-- `x[rd] <- sext_32(r)`, of an instruction that exists at W = 64 only (42_base_alu.md section 5). -/
def State.writesWord (s : State) (i : Instr) (rd : Reg) (r : BitVec 32) : Result :=
  s.whenLegal i (s.writes rd (sext r))

/-- A load: read `n` bytes at the effective address, write `x[rd]` with what `ext` makes of them; out of bounds it
raises and writes nothing (43_base_loadstore.md R220, R233). -/
def State.load (s : State) (rd rs1 : Reg) (imm : BitVec 12) (n : Nat) (ext : Nat → BitVec s.W) : Result :=
  match s.memRead (s.effAddr rs1 imm) n .load with
  | .error f => raise f
  | .ok v => s.writes rd (ext v)

/-- A store: write the low `n` bytes of `x[rs2]` at the effective address; out of bounds it raises and writes nothing
(43_base_loadstore.md R220). -/
def State.store (s : State) (rs1 rs2 : Reg) (imm : BitVec 12) (n : Nat) : Result :=
  match s.memWrite (s.effAddr rs1 imm) n (s.x rs2).toNat with
  | .error f => raise f
  | .ok a => s.finish { mem := some a }

/-- A conditional branch: `pc <- wrap_W(pc + imm)` when the condition holds, else no explicit pc change
(44_base_control.md section 2). -/
def State.branch (s : State) (cond : Bool) (offset : BitVec 13) : Result :=
  s.finish { nextPc := if cond then some (s.pc + s.imm offset) else none }

/-- `x[rd] <- wrap_W(pc + 4)` and `pc <- target` (44_base_control.md R257, R258). -/
def State.jump (s : State) (rd : Reg) (target : BitVec s.W) : Result :=
  s.finish { reg := some (rd, s.pc + 4), nextPc := some target }

/-- The instruction completes, does nothing else and signals `g` (60_exceptions.md R308). -/
def State.signals (s : State) (g : Signal) : Result := s.finish { signal := some g }

end Sys2Proof.Machine
end

