-- ==== Sys2Proof/Machine/Alu.lean ====
section
/-! DEFINITION. Machine/Alu.lean: extension I, upper immediates, register-immediate and register-register
instructions of width W (42_base_alu.md sections 2 to 4; template R190). -/

namespace Sys2Proof.Machine

/-! ### Upper immediates -/

/-- LUI (R160). -/
def execLui (rd : Reg) (imm20 : BitVec 20) (s : State) : Result := s.writes rd (s.immU imm20)

/-- AUIPC (R161). -/
def execAuipc (rd : Reg) (imm20 : BitVec 20) (s : State) : Result := s.writes rd (s.pc + s.immU imm20)

/-! ### Register-immediate -/

/-- ADDI (R162). -/
def execAddi (rd rs1 : Reg) (imm : BitVec 12) (s : State) : Result := s.writes rd (s.x rs1 + s.imm imm)

/-- SLTI (R163). -/
def execSlti (rd rs1 : Reg) (imm : BitVec 12) (s : State) : Result :=
  s.writes rd (boolValue (lessSigned (s.x rs1) (s.imm imm)))

/-- SLTIU: the immediate is sign-extended, the comparison unsigned (R164). -/
def execSltiu (rd rs1 : Reg) (imm : BitVec 12) (s : State) : Result :=
  s.writes rd (boolValue (lessUnsigned (s.x rs1) (s.imm imm)))

/-- XORI (R165). -/
def execXori (rd rs1 : Reg) (imm : BitVec 12) (s : State) : Result := s.writes rd (s.x rs1 ^^^ s.imm imm)

/-- ORI (R166). -/
def execOri (rd rs1 : Reg) (imm : BitVec 12) (s : State) : Result := s.writes rd (s.x rs1 ||| s.imm imm)

/-- ANDI (R167). -/
def execAndi (rd rs1 : Reg) (imm : BitVec 12) (s : State) : Result := s.writes rd (s.x rs1 &&& s.imm imm)

/-- SLLI (R168). -/
def execSlli (rd rs1 : Reg) (shamt : BitVec 6) (s : State) : Result :=
  s.whenLegal (.slli rd rs1 shamt) (s.writes rd (s.x rs1 <<< shamt.toNat))

/-- SRLI (R169). -/
def execSrli (rd rs1 : Reg) (shamt : BitVec 6) (s : State) : Result :=
  s.whenLegal (.srli rd rs1 shamt) (s.writes rd (s.x rs1 >>> shamt.toNat))

/-- SRAI (R170). -/
def execSrai (rd rs1 : Reg) (shamt : BitVec 6) (s : State) : Result :=
  s.whenLegal (.srai rd rs1 shamt) (s.writes rd ((s.x rs1).sshiftRight shamt.toNat))

/-! ### Register-register -/

/-- ADD (R171). -/
def execAdd (rd rs1 rs2 : Reg) (s : State) : Result := s.writes rd (s.x rs1 + s.x rs2)

/-- SUB (R172). -/
def execSub (rd rs1 rs2 : Reg) (s : State) : Result := s.writes rd (s.x rs1 - s.x rs2)

/-- SLL (R173). -/
def execSll (rd rs1 rs2 : Reg) (s : State) : Result := s.writes rd (s.x rs1 <<< s.shiftAmount (s.x rs2))

/-- SLT (R174). -/
def execSlt (rd rs1 rs2 : Reg) (s : State) : Result := s.writes rd (boolValue (lessSigned (s.x rs1) (s.x rs2)))

/-- SLTU (R175). -/
def execSltu (rd rs1 rs2 : Reg) (s : State) : Result := s.writes rd (boolValue (lessUnsigned (s.x rs1) (s.x rs2)))

/-- XOR (R176). -/
def execXor (rd rs1 rs2 : Reg) (s : State) : Result := s.writes rd (s.x rs1 ^^^ s.x rs2)

/-- SRL (R177). -/
def execSrl (rd rs1 rs2 : Reg) (s : State) : Result := s.writes rd (s.x rs1 >>> s.shiftAmount (s.x rs2))

/-- SRA (R178). -/
def execSra (rd rs1 rs2 : Reg) (s : State) : Result := s.writes rd ((s.x rs1).sshiftRight (s.shiftAmount (s.x rs2)))

/-- OR (R179). -/
def execOr (rd rs1 rs2 : Reg) (s : State) : Result := s.writes rd (s.x rs1 ||| s.x rs2)

/-- AND (R180). -/
def execAnd (rd rs1 rs2 : Reg) (s : State) : Result := s.writes rd (s.x rs1 &&& s.x rs2)

end Sys2Proof.Machine
end

