-- ==== Sys2Proof/Machine/AluWord.lean ====
section
/-! DEFINITION. Machine/AluWord.lean: extension I, the word instructions, W = 64 only (42_base_alu.md section 5):
computed on the low 32 bits, the 32-bit result sign-extended. At W = 32 their words are illegal (log 9). -/

namespace Sys2Proof.Machine

/-- ADDIW (R181). -/
def execAddiw (rd rs1 : Reg) (imm : BitVec 12) (s : State) : Result :=
  s.writesWord (.addiw rd rs1 imm) rd (low32 (s.x rs1) + sext imm)

/-- SLLIW (R182). -/
def execSlliw (rd rs1 : Reg) (shamt : BitVec 5) (s : State) : Result :=
  s.writesWord (.slliw rd rs1 shamt) rd (low32 (s.x rs1) <<< shamt.toNat)

/-- SRLIW (R183). -/
def execSrliw (rd rs1 : Reg) (shamt : BitVec 5) (s : State) : Result :=
  s.writesWord (.srliw rd rs1 shamt) rd (low32 (s.x rs1) >>> shamt.toNat)

/-- SRAIW (R184). -/
def execSraiw (rd rs1 : Reg) (shamt : BitVec 5) (s : State) : Result :=
  s.writesWord (.sraiw rd rs1 shamt) rd ((low32 (s.x rs1)).sshiftRight shamt.toNat)

/-- ADDW (R185). -/
def execAddw (rd rs1 rs2 : Reg) (s : State) : Result :=
  s.writesWord (.addw rd rs1 rs2) rd (low32 (s.x rs1) + low32 (s.x rs2))

/-- SUBW (R186). -/
def execSubw (rd rs1 rs2 : Reg) (s : State) : Result :=
  s.writesWord (.subw rd rs1 rs2) rd (low32 (s.x rs1) - low32 (s.x rs2))

/-- SLLW: five bits of shift amount, not six (R187). -/
def execSllw (rd rs1 rs2 : Reg) (s : State) : Result :=
  s.writesWord (.sllw rd rs1 rs2) rd (low32 (s.x rs1) <<< wordShiftAmount (s.x rs2))

/-- SRLW (R188). -/
def execSrlw (rd rs1 rs2 : Reg) (s : State) : Result :=
  s.writesWord (.srlw rd rs1 rs2) rd (low32 (s.x rs1) >>> wordShiftAmount (s.x rs2))

/-- SRAW (R189). -/
def execSraw (rd rs1 rs2 : Reg) (s : State) : Result :=
  s.writesWord (.sraw rd rs1 rs2) rd ((low32 (s.x rs1)).sshiftRight (wordShiftAmount (s.x rs2)))

end Sys2Proof.Machine
end

