-- ==== Sys2Proof/Machine/Control.lean ====
section
/-! DEFINITION. Machine/Control.lean: extension I, conditional branches and jumps (44_base_control.md; template R250).
No target is checked for alignment (R250; log 19). -/

namespace Sys2Proof.Machine

/-- BEQ (R251). -/
def execBeq (rs1 rs2 : Reg) (offset : BitVec 13) (s : State) : Result := s.branch (s.x rs1 == s.x rs2) offset

/-- BNE (R252). -/
def execBne (rs1 rs2 : Reg) (offset : BitVec 13) (s : State) : Result := s.branch (!(s.x rs1 == s.x rs2)) offset

/-- BLT (R253). -/
def execBlt (rs1 rs2 : Reg) (offset : BitVec 13) (s : State) : Result :=
  s.branch (lessSigned (s.x rs1) (s.x rs2)) offset

/-- BGE (R254). -/
def execBge (rs1 rs2 : Reg) (offset : BitVec 13) (s : State) : Result :=
  s.branch (!lessSigned (s.x rs1) (s.x rs2)) offset

/-- BLTU (R255). -/
def execBltu (rs1 rs2 : Reg) (offset : BitVec 13) (s : State) : Result :=
  s.branch (lessUnsigned (s.x rs1) (s.x rs2)) offset

/-- BGEU (R256). -/
def execBgeu (rs1 rs2 : Reg) (offset : BitVec 13) (s : State) : Result :=
  s.branch (!lessUnsigned (s.x rs1) (s.x rs2)) offset

/-- JAL (R257). -/
def execJal (rd : Reg) (offset : BitVec 21) (s : State) : Result := s.jump rd (s.pc + s.imm offset)

/-- `t` with bit 0 cleared: `t & (2^W - 2)` (R258). -/
def clearBit0 {w : Nat} (t : BitVec w) : BitVec w := t &&& (maxVal w - 1)

/-- JALR: the target uses the old `x[rs1]`, with bit 0 cleared (R258). -/
def execJalr (rd rs1 : Reg) (imm : BitVec 12) (s : State) : Result := s.jump rd (clearBit0 (s.x rs1 + s.imm imm))

end Sys2Proof.Machine
end

