-- ==== Sys2Proof/Machine/LoadStore.lean ====
section
/-! DEFINITION. Machine/LoadStore.lean: extension I, loads and stores (43_base_loadstore.md; template R220). -/

namespace Sys2Proof.Machine

/-- `sext_(8n)` of the natural number a read gives (R222, R223, R224). -/
def sextBytes {w : Nat} (n v : Nat) : BitVec w := sext (BitVec.ofNat (8 * n) v)

/-- `zext_(8n)` of the natural number a read gives (R225, R226, R227). -/
def zextBytes {w : Nat} (n v : Nat) : BitVec w := zext (BitVec.ofNat (8 * n) v)

/-! ### Loads -/

/-- LB (R222). -/
def execLb (rd rs1 : Reg) (imm : BitVec 12) (s : State) : Result := s.load rd rs1 imm 1 (sextBytes 1)

/-- LH (R223). -/
def execLh (rd rs1 : Reg) (imm : BitVec 12) (s : State) : Result := s.load rd rs1 imm 2 (sextBytes 2)

/-- LW: at W = 32 the four bytes, at W = 64 their sign extension (R224). -/
def execLw (rd rs1 : Reg) (imm : BitVec 12) (s : State) : Result := s.load rd rs1 imm 4 (sextBytes 4)

/-- LBU (R225). -/
def execLbu (rd rs1 : Reg) (imm : BitVec 12) (s : State) : Result := s.load rd rs1 imm 1 (zextBytes 1)

/-- LHU (R226). -/
def execLhu (rd rs1 : Reg) (imm : BitVec 12) (s : State) : Result := s.load rd rs1 imm 2 (zextBytes 2)

/-- LWU, W = 64 only (R227). -/
def execLwu (rd rs1 : Reg) (imm : BitVec 12) (s : State) : Result :=
  s.whenLegal (.lwu rd rs1 imm) (s.load rd rs1 imm 4 (zextBytes 4))

/-- LD, W = 64 only (R228). -/
def execLd (rd rs1 : Reg) (imm : BitVec 12) (s : State) : Result :=
  s.whenLegal (.ld rd rs1 imm) (s.load rd rs1 imm 8 (zextBytes 8))

/-! ### Stores -/

/-- SB (R229). -/
def execSb (rs1 rs2 : Reg) (imm : BitVec 12) (s : State) : Result := s.store rs1 rs2 imm 1

/-- SH (R230). -/
def execSh (rs1 rs2 : Reg) (imm : BitVec 12) (s : State) : Result := s.store rs1 rs2 imm 2

/-- SW (R231). -/
def execSw (rs1 rs2 : Reg) (imm : BitVec 12) (s : State) : Result := s.store rs1 rs2 imm 4

/-- SD, W = 64 only (R232). -/
def execSd (rs1 rs2 : Reg) (imm : BitVec 12) (s : State) : Result :=
  s.whenLegal (.sd rs1 rs2 imm) (s.store rs1 rs2 imm 8)

end Sys2Proof.Machine
end

