-- ==== Sys2Proof/Machine/MulDiv.lean ====
section
/-! DEFINITION. Machine/MulDiv.lean: extension M (41_m_arith.md). The values are computed exactly on integers and
narrowed at the end. -/

namespace Sys2Proof.Machine

/-! ### The operations on values (41_m_arith.md R153) -/

/-- Wraparound multiply: `wrap_W(s(a) * s(b))` (R141). -/
def mulLow {w : Nat} (a b : BitVec w) : BitVec w := BitVec.ofInt w (a.toInt * b.toInt)

/-- The upper W bits of the signed by signed product: `wrap_W(floor(s(a) * s(b) / 2^W))` (R142). -/
def mulHighSS {w : Nat} (a b : BitVec w) : BitVec w := BitVec.ofInt w (a.toInt * b.toInt / ((2 ^ w : Nat) : Int))

/-- The upper W bits of the signed by unsigned product: `wrap_W(floor(s(a) * u(b) / 2^W))` (R143). -/
def mulHighSU {w : Nat} (a b : BitVec w) : BitVec w :=
  BitVec.ofInt w (a.toInt * (b.toNat : Int) / ((2 ^ w : Nat) : Int))

/-- The upper W bits of the unsigned product: `floor(u(a) * u(b) / 2^W)` (R144). -/
def mulHighUU {w : Nat} (a b : BitVec w) : BitVec w := BitVec.ofNat w (a.toNat * b.toNat / 2 ^ w)

/-- Signed division, rounding toward zero, with the edge cases of R150: by zero MAX, on overflow MIN (R145). -/
def divSigned {w : Nat} (a b : BitVec w) : BitVec w :=
  if b = 0 then maxVal w
  else if divOverflows a b then minVal w
  else BitVec.ofInt w (a.toInt.tdiv b.toInt)

/-- Unsigned division; by zero MAX (R146, R150). -/
def divUnsigned {w : Nat} (a b : BitVec w) : BitVec w :=
  if b = 0 then maxVal w else BitVec.ofNat w (a.toNat / b.toNat)

/-- Signed remainder: by zero the dividend, on overflow 0 (R147, R150). -/
def remSigned {w : Nat} (a b : BitVec w) : BitVec w :=
  if b = 0 then a
  else if divOverflows a b then 0
  else BitVec.ofInt w (a.toInt - b.toInt * a.toInt.tdiv b.toInt)

/-- Unsigned remainder; by zero the dividend (R148, R150). -/
def remUnsigned {w : Nat} (a b : BitVec w) : BitVec w :=
  if b = 0 then a else BitVec.ofNat w (a.toNat % b.toNat)

/-! ### The instructions (template R140) -/

/-- MUL (R141). -/
def execMul (rd rs1 rs2 : Reg) (s : State) : Result := s.writes rd (mulLow (s.x rs1) (s.x rs2))

/-- MULH (R142). -/
def execMulh (rd rs1 rs2 : Reg) (s : State) : Result := s.writes rd (mulHighSS (s.x rs1) (s.x rs2))

/-- MULHSU: `rs1` signed, `rs2` unsigned (R143). -/
def execMulhsu (rd rs1 rs2 : Reg) (s : State) : Result := s.writes rd (mulHighSU (s.x rs1) (s.x rs2))

/-- MULHU (R144). -/
def execMulhu (rd rs1 rs2 : Reg) (s : State) : Result := s.writes rd (mulHighUU (s.x rs1) (s.x rs2))

/-- DIV (R145). -/
def execDiv (rd rs1 rs2 : Reg) (s : State) : Result := s.writes rd (divSigned (s.x rs1) (s.x rs2))

/-- DIVU (R146). -/
def execDivu (rd rs1 rs2 : Reg) (s : State) : Result := s.writes rd (divUnsigned (s.x rs1) (s.x rs2))

/-- REM (R147). -/
def execRem (rd rs1 rs2 : Reg) (s : State) : Result := s.writes rd (remSigned (s.x rs1) (s.x rs2))

/-- REMU (R148). -/
def execRemu (rd rs1 rs2 : Reg) (s : State) : Result := s.writes rd (remUnsigned (s.x rs1) (s.x rs2))

end Sys2Proof.Machine
end

