-- ==== Sys2Proof/Machine/System.lean ====
section
/-! DEFINITION. Machine/System.lean: extension I, FENCE, ECALL and EBREAK (45_base_system.md). -/

namespace Sys2Proof.Machine

/-- FENCE: a no-operation; the pc advances (R270). -/
def execFence (s : State) : Result := s.finish {}

/-- ECALL: completes and signals EnvironmentCall (R271). -/
def execEcall (s : State) : Result := s.signals .environmentCall

/-- EBREAK: completes and signals Breakpoint (R272). -/
def execEbreak (s : State) : Result := s.signals .breakpoint

end Sys2Proof.Machine
end

