-- ==== Sys2Proof/Machine/Step.lean ====
section
/-! DEFINITION. Machine/Step.lean: one step (40_dispatch.md R120): fetch, decode, budget check, execute and commit,
charge; it stops at the first stage that ends it. -/

namespace Sys2Proof.Machine

/-- One step (R120, R132). -/
def step (s : State) : Host.Outcome State Fault Refusal :=
  match s.fetch with
  | .error f => raise f
  | .ok w =>
    match s.decoded w with
    | .error f => raise f
    | .ok i => if s.overBudget i then raise .cycleBudgetExceeded else Result.charged i (exec i s)

/-- `s` with the word of an opcode-table row stored where the step fetches its next instruction (log 16). -/
def State.withFetchWord (s : State) (nbits w : Nat) : State := s.placeWord (BitVec.ofNat 32 (w % 2 ^ nbits))

end Sys2Proof.Machine
end

