-- ==== Sys2Proof/Machine/HostOps.lean ====
section
/-! DEFINITION. Machine/HostOps.lean: what the host may do to an instance between two steps (10_state.md R37, R28;
20_memory.md R65). No part of a step (log 15). -/

namespace Sys2Proof.Machine

/-- The host writes a register; register 0 stays 0 (R37 (c), R22). -/
def State.hostSetX (s : State) (r : Reg) (v : BitVec s.W) : State := { s with arch := s.arch.setX r v }

/-- The host writes the pc (R37 (c)). -/
def State.hostSetPc (s : State) (v : BitVec s.W) : State := { s with arch := { s.arch with pc := v } }

/-- The host writes one byte of memory; outside the extent there is none (R37 (c), R50). -/
def State.hostSetByte (s : State) (a : Nat) (v : Byte) : State :=
  if inBounds s.cfg.memSize a 1 then { s with arch := { s.arch with mem := s.arch.mem.write a v } } else s

/-- The host changes the budget (R28). -/
def State.hostSetBudget (s : State) (v : BitVec 64) : State := { s with arch := { s.arch with budget := v } }

/-- The host reads the cycle counter (R27, R37 (c)). -/
def State.hostReadCycles (s : State) : BitVec 64 := s.arch.cycles

/-- The host resets the instance again: exactly the reset state of its parameters (R343). -/
def State.hostReset (s : State) (p : ResetParams s.W) : State := State.resetWith s.cfg p

end Sys2Proof.Machine
end

