-- ==== Sys2Proof/Safety.lean ====
section
/-! DEFINITION. Safety.lean: the four outcomes of a step with their states (00_scope.md R15), a run of the host
(40_dispatch.md R131), the invariant of a legal machine (10_state.md R28, 20_memory.md R50), and the classes of
instructions the spec's whole-machine rules speak of (20_memory.md R56, 40_dispatch.md R124, 60_exceptions.md R308). -/

namespace Sys2Proof

/-- How many bytes a load reads (20_memory.md R56); none for every other instruction. -/
def Instr.loadSize : Instr → Option Nat
  | .lb .. | .lbu .. => some 1
  | .lh .. | .lhu .. => some 2
  | .lw .. | .lwu .. => some 4
  | .ld .. => some 8
  | _ => none

/-- How many bytes a store writes (20_memory.md R56); none for every other instruction. -/
def Instr.storeSize : Instr → Option Nat
  | .sb .. => some 1
  | .sh .. => some 2
  | .sw .. => some 4
  | .sd .. => some 8
  | _ => none

/-- The instructions that may return an explicit pc: JAL, JALR and the conditional branches (40_dispatch.md R124). -/
def Instr.transfersControl : Instr → Bool
  | .jal .. | .jalr .. => true
  | .beq .. | .bne .. | .blt .. | .bge .. | .bltu .. | .bgeu .. => true
  | _ => false

/-- The destination register, for the instructions of a format that has one (30_encoding.md R92, R103). -/
def Instr.dest (i : Instr) : Reg := (i.typed (w := 0)).rd

end Sys2Proof

namespace Sys2Proof.Machine

/-- The signal an instruction raises (60_exceptions.md R304, R305). -/
def signalOf : Instr → Option Signal
  | .ecall => some .environmentCall
  | .ebreak => some .breakpoint
  | _ => none

/-- The outcome of a step as the spec words it, each with the state the host then holds (00_scope.md R15). -/
inductive StepOutcome where
  /-- The instruction completed. -/
  | next (s : State)
  /-- The instruction completed and asks the host for service (60_exceptions.md R308). -/
  | signal (g : Signal) (s : State)
  /-- The instruction was abandoned; the state is unchanged (60_exceptions.md R307). -/
  | fault (f : Fault) (s : State)
  /-- The instruction was not executed; the state is unchanged (60_exceptions.md R303). -/
  | halt (s : State)
  /-- The model gives the instruction no meaning; no instruction ends so. -/
  | refused (r : Refusal) (s : State)
  deriving DecidableEq, Repr

/-- The outcome of one step from `s` (00_scope.md R15; log 7, log 8). -/
def outcome (s : State) : StepOutcome :=
  match step s with
  | .next t =>
    match t.arch.signal with
    | none => .next t
    | some g => .signal g t
  | .fault .cycleBudgetExceeded => .halt s
  | .fault (.decodeError w) => .fault (.decodeError w) s
  | .fault (.memoryFault a n k) => .fault (.memoryFault a n k) s
  | .refused r => .refused r s

/-- A run of at most `n` steps: the host repeats the step while the outcome is `Next` (40_dispatch.md R131). -/
def run : Nat → State → StepOutcome
  | 0, s => .next s
  | n + 1, s =>
    match outcome s with
    | .next t => run n t
    | .signal g t => .signal g t
    | .fault f t => .fault f t
    | .halt t => .halt t
    | .refused r t => .refused r t

/-- The run has ended: its last outcome is no `Next` (40_dispatch.md R131). -/
def StepOutcome.ended : StepOutcome → Bool
  | .next _ => false
  | .signal _ _ | .fault _ _ | .halt _ | .refused _ _ => true

/-- A legal machine: `MEM_SIZE <= 2^W` (20_memory.md R50), memory in canonical form and inside the extent,
`cycles <= budget` (10_state.md R28). -/
structure State.Inv (s : State) : Prop where
  cfg : s.cfg.wf
  memWf : s.arch.mem.wf
  memWithin : s.arch.mem.within s.cfg.memSize
  budget : s.arch.cycles.toNat ≤ s.arch.budget.toNat

/-- A safe run of `n` steps: it meets no fault and no refusal (a halt and a signal are no errors, 60_exceptions.md R300). -/
def State.safeFor (s : State) (n : Nat) : Prop :=
  ∀ k, k ≤ n → ∀ t, (∀ f, run k s ≠ .fault f t) ∧ ∀ r, run k s ≠ .refused r t

end Sys2Proof.Machine
end

