-- ==== Sys2Proof/Certificates/Slice0/Obligations.lean ====
section
/-! DEFINITION. Certificates/Slice0/Obligations.lean: the statements for the provers. Each docstring names the rules of
spec/ it formalises. The spec marks every rule of extension I (files 42 to 45) as its own decision D3 supplied from general
knowledge of RISC-V, and the numeric encodings of extension M as D4 (log 12, log 13); a statement about them
formalises those rules as the spec gives them. -/

namespace Sys2Proof.Spec

open Sys2Proof.Machine

/-! ### What the statements are written with -/

/-- Every word with these fixed bits decodes, at the widths `ws` and wherever extension `e` is enabled, to the
instruction built from its fields (30_encoding.md R93, R94). -/
def Encoded (e : Extension) (ws : List Width) (mask pat : InsnWord) (build : InsnWord → Instr) : Prop :=
  ∀ wd ∈ ws, ∀ exts : List Extension, e ∈ exts → ∀ w : InsnWord, w &&& mask = pat →
    decode wd exts w = some (build w)

/-- The words with these fixed bits are illegal at W = 32 (30_encoding.md R99, R102). -/
def IllegalAt32 (mask pat : InsnWord) : Prop :=
  ∀ (exts : List Extension) (w : InsnWord), w &&& mask = pat → decode .w32 exts w = none

/-- Operands of format R: `rd = w[11:7]`, `rs1 = w[19:15]`, `rs2 = w[24:20]` (R82, R83). -/
def operandsR (c : Reg → Reg → Reg → Instr) (w : InsnWord) : Instr :=
  c (w.extractLsb' 7 5) (w.extractLsb' 15 5) (w.extractLsb' 20 5)

/-- Operands of format I: `rd`, `rs1`, `w[31:20]` (R83, R84). -/
def operandsI (c : Reg → Reg → BitVec 12 → Instr) (w : InsnWord) : Instr :=
  c (w.extractLsb' 7 5) (w.extractLsb' 15 5) (w.extractLsb' 20 12)

/-- Operands of format S: `rs1`, `rs2`, `w[31:25] ++ w[11:7]` (R83, R85). -/
def operandsS (c : Reg → Reg → BitVec 12 → Instr) (w : InsnWord) : Instr :=
  c (w.extractLsb' 15 5) (w.extractLsb' 20 5) (w.extractLsb' 25 7 ++ w.extractLsb' 7 5)

/-- Operands of format B: `rs1`, `rs2`, `w[31] ++ w[7] ++ w[30:25] ++ w[11:8] ++ 0` (R83, R86). -/
def operandsB (c : Reg → Reg → BitVec 13 → Instr) (w : InsnWord) : Instr :=
  c (w.extractLsb' 15 5) (w.extractLsb' 20 5)
    (w.extractLsb' 31 1 ++ w.extractLsb' 7 1 ++ w.extractLsb' 25 6 ++ w.extractLsb' 8 4 ++ 0#1)

/-- Operands of format U: `rd`, `w[31:12]` (R83, R87). -/
def operandsU (c : Reg → BitVec 20 → Instr) (w : InsnWord) : Instr :=
  c (w.extractLsb' 7 5) (w.extractLsb' 12 20)

/-- Operands of format J: `rd`, `w[31] ++ w[19:12] ++ w[20] ++ w[30:21] ++ 0` (R83, R88). -/
def operandsJ (c : Reg → BitVec 21 → Instr) (w : InsnWord) : Instr :=
  c (w.extractLsb' 7 5)
    (w.extractLsb' 31 1 ++ w.extractLsb' 12 8 ++ w.extractLsb' 20 1 ++ w.extractLsb' 21 10 ++ 0#1)

/-- Operands of a shift by a five-bit amount `w[24:20]` (R89). -/
def operandsShift5 {n : Nat} (c : Reg → Reg → BitVec n → Instr) (w : InsnWord) : Instr :=
  c (w.extractLsb' 7 5) (w.extractLsb' 15 5) ((w.extractLsb' 20 5).setWidth n)

/-- Operands of a shift by a six-bit amount `w[25:20]` (R89). -/
def operandsShift6 (c : Reg → Reg → BitVec 6 → Instr) (w : InsnWord) : Instr :=
  c (w.extractLsb' 7 5) (w.extractLsb' 15 5) (w.extractLsb' 20 6)

/-- The operation of extension M that funct3 selects (30_encoding.md R94). -/
def operationM (f : BitVec 3) : Reg → Reg → Reg → Instr :=
  if f = 0b000#3 then .mul else if f = 0b001#3 then .mulh else if f = 0b010#3 then .mulhsu
  else if f = 0b011#3 then .mulhu else if f = 0b100#3 then .div else if f = 0b101#3 then .divu
  else if f = 0b110#3 then .rem else .remu

/-- What every register reads after at most one register write (10_state.md R22). -/
def regsAfter {w : Nat} (c0 : Arch w) : Option (Reg × BitVec w) → Reg → BitVec w
  | none, q => c0.x q
  | some (rd, v), q => if q = 0 then 0 else if q = rd then v else c0.x q

/-- `c` is `c0` after an instruction that stores nothing: the one register write, the new pc, the signal; every other
register, every byte of memory, `cycles` and `budget` as before; no store event. -/
structure Became {w : Nat} (c0 c : Arch w) (reg : Option (Reg × BitVec w)) (pc' : BitVec w)
    (sig : Option Signal) : Prop where
  regs : ∀ q, c.x q = regsAfter c0 reg q
  pc : c.pc = pc'
  mem : ∀ a, c.mem.read a = c0.mem.read a
  cycles : c.cycles = c0.cycles
  budget : c.budget = c0.budget
  signal : c.signal = sig
  storeEvent : c.storeEvent = none

/-- `c` is `c0` after `n` bytes of `v` were stored from address `a` on, least significant first (20_memory.md R54): every
byte outside them, every register, `cycles` and `budget` as before; the pc advanced by 4; the store event put out. -/
structure Stored {w : Nat} (c0 c : Arch w) (a n : Nat) (v : BitVec w) : Prop where
  bytes : ∀ i, i < n → c.mem.read (a + i) = v.extractLsb' (8 * i) 8
  others : ∀ b, b < a ∨ a + n ≤ b → c.mem.read b = c0.mem.read b
  regs : ∀ q, c.x q = c0.x q
  pc : c.pc = c0.pc + 4
  cycles : c.cycles = c0.cycles
  budget : c.budget = c0.budget
  signal : c.signal = none
  storeEvent : c.storeEvent = some ⟨a, n⟩

/-- The result is a next state with the configuration of `s` and a machine state that meets `P`. -/
def Completes (s : State) (r : Result) (P : Arch s.W → Prop) : Prop :=
  ∃ c : Arch s.W, r = .next ⟨s.cfg, c⟩ ∧ P c

/-- The result: `x[rd] <- v`, pc advanced by 4, nothing else (41_m_arith.md R140, 42_base_alu.md R190). -/
def WritesReg (s : State) (r : Result) (rd : Reg) (v : BitVec s.W) : Prop :=
  Completes s r fun c => Became s.arch c (some (rd, v)) (s.arch.pc + 4) none

/-- A register-register instruction: its encoding, and at the widths it exists at it completes with
`x[rd] <- f(x[rs1], x[rs2])`, for every choice of the three registers. -/
def RegReg (e : Extension) (ws : List Width) (pat : InsnWord) (c : Reg → Reg → Reg → Instr)
    (f : ∀ s : State, BitVec s.W → BitVec s.W → BitVec s.W) : Prop :=
  Encoded e ws 0xfe00707f pat (operandsR c) ∧
  ∀ (s : State) (rd rs1 rs2 : Reg), s.cfg.width ∈ ws →
    WritesReg s (exec (c rd rs1 rs2) s) rd (f s (s.x rs1) (s.x rs2))

/-- A register-immediate instruction: its encoding, and it completes with `x[rd] <- f(x[rs1], imm)`. -/
def RegImm (ws : List Width) (pat : InsnWord) (c : Reg → Reg → BitVec 12 → Instr)
    (f : ∀ s : State, BitVec s.W → BitVec 12 → BitVec s.W) : Prop :=
  Encoded .I ws 0x0000707f pat (operandsI c) ∧
  ∀ (s : State) (rd rs1 : Reg) (imm : BitVec 12), s.cfg.width ∈ ws →
    WritesReg s (exec (c rd rs1 imm) s) rd (f s (s.x rs1) imm)

/-- A shift by an immediate amount: five bits at W = 32, six at W = 64 (30_encoding.md R89), an amount of 32 or more
illegal at W = 32 (R109), and it completes with `x[rd] <- f(x[rs1], shamt)` for every amount its width can encode. -/
def ShiftImm (pat : InsnWord) (c : Reg → Reg → BitVec 6 → Instr)
    (f : ∀ s : State, BitVec s.W → Nat → BitVec s.W) : Prop :=
  Encoded .I [.w32] 0xfe00707f pat (operandsShift5 c) ∧ Encoded .I [.w64] 0xfc00707f pat (operandsShift6 c) ∧
  IllegalAt32 0xfe00707f (pat ||| 0x02000000) ∧
  ∀ (s : State) (rd rs1 : Reg) (amt : BitVec 6), amt.toNat < s.W →
    WritesReg s (exec (c rd rs1 amt) s) rd (f s (s.x rs1) amt.toNat)

/-- A word shift by an immediate amount, W = 64 only (30_encoding.md R89, R102). -/
def WordShiftImm (pat : InsnWord) (c : Reg → Reg → BitVec 5 → Instr)
    (f : ∀ s : State, BitVec s.W → Nat → BitVec s.W) : Prop :=
  Encoded .I [.w64] 0xfe00707f pat (operandsShift5 c) ∧ IllegalAt32 0xfe00707f pat ∧
  ∀ (s : State) (rd rs1 : Reg) (amt : BitVec 5), s.cfg.width = .w64 →
    WritesReg s (exec (c rd rs1 amt) s) rd (f s (s.x rs1) amt.toNat)

/-- The effective address `wrap_W(x[rs1] + imm)` of a load or store (43_base_loadstore.md R221). -/
def address (s : State) (rs1 : Reg) (imm : BitVec 12) : Nat :=
  (BitVec.ofInt s.W ((s.x rs1).toNat + imm.toInt)).toNat

/-- A load of `n` bytes: its encoding; in bounds it completes with `x[rd]` the value `f` makes of memory from the effective
address on; out of bounds it is the MemoryFault of that address (43_base_loadstore.md R220, R233; 20_memory.md R51). -/
def Load (ws : List Width) (pat : InsnWord) (c : Reg → Reg → BitVec 12 → Instr) (n : Nat)
    (f : ∀ s : State, (Nat → Byte) → BitVec s.W) : Prop :=
  Encoded .I ws 0x0000707f pat (operandsI c) ∧
  ∀ (s : State) (rd rs1 : Reg) (imm : BitVec 12), s.cfg.width ∈ ws →
    (address s rs1 imm + n ≤ s.cfg.memSize →
      WritesReg s (exec (c rd rs1 imm) s) rd (f s fun i => s.arch.mem.read (address s rs1 imm + i))) ∧
    (s.cfg.memSize < address s rs1 imm + n →
      exec (c rd rs1 imm) s = .fault (.memoryFault (address s rs1 imm) n .load))

/-- A store of `n` bytes: its encoding; in bounds it completes with the low `n` bytes of `x[rs2]` stored at the effective
address; out of bounds it is the MemoryFault of that address (43_base_loadstore.md R220; 20_memory.md R51). -/
def Store (ws : List Width) (pat : InsnWord) (c : Reg → Reg → BitVec 12 → Instr) (n : Nat) : Prop :=
  Encoded .I ws 0x0000707f pat (operandsS c) ∧
  ∀ (s : State) (rs1 rs2 : Reg) (imm : BitVec 12), s.cfg.width ∈ ws →
    (address s rs1 imm + n ≤ s.cfg.memSize →
      Completes s (exec (c rs1 rs2 imm) s) fun a => Stored s.arch a (address s rs1 imm) n (s.x rs2)) ∧
    (s.cfg.memSize < address s rs1 imm + n →
      exec (c rs1 rs2 imm) s = .fault (.memoryFault (address s rs1 imm) n .store))

/-- A conditional branch: its encoding; it completes with the pc at `wrap_W(pc + imm)` when the condition holds, else at
`wrap_W(pc + 4)`, and changes nothing else (44_base_control.md R250). -/
def Branch (pat : InsnWord) (c : Reg → Reg → BitVec 13 → Instr)
    (cond : ∀ s : State, BitVec s.W → BitVec s.W → Prop) : Prop :=
  Encoded .I [.w32, .w64] 0x0000707f pat (operandsB c) ∧
  ∀ (s : State) (rs1 rs2 : Reg) (off : BitVec 13),
    (cond s (s.x rs1) (s.x rs2) → Completes s (exec (c rs1 rs2 off) s) fun a =>
      Became s.arch a none (BitVec.ofInt s.W (s.arch.pc.toNat + off.toInt)) none) ∧
    (¬ cond s (s.x rs1) (s.x rs2) → Completes s (exec (c rs1 rs2 off) s) fun a =>
      Became s.arch a none (s.arch.pc + 4) none)

/-- The four bytes at the pc as a word, the byte at `pc` least significant (30_encoding.md R81). -/
def wordAtPc (s : State) : InsnWord :=
  s.arch.mem.read (s.arch.pc.toNat + 3) ++ s.arch.mem.read (s.arch.pc.toNat + 2) ++
    s.arch.mem.read (s.arch.pc.toNat + 1) ++ s.arch.mem.read s.arch.pc.toNat

/-- The four bytes at the pc are in bounds (40_dispatch.md R121). -/
def Fetchable (s : State) : Prop := s.arch.pc.toNat + 4 ≤ s.cfg.memSize

/-- The word at the pc decodes to `i` on this instance (40_dispatch.md R122). -/
def DecodesTo (s : State) (i : Instr) : Prop := decode s.cfg.width s.cfg.extensions (wordAtPc s) = some i

/-- The cost of `i` fits the budget (40_dispatch.md R126). -/
def Fits (s : State) (i : Instr) : Prop := s.arch.cycles.toNat + s.cfg.cost i ≤ s.arch.budget.toNat

/-- The single memory access of an instruction at a state, beside its fetch: effective address, size, kind
(43_base_loadstore.md R220, R221; 20_memory.md R56); none for an instruction that is no load and no store. -/
def dataAccess (s : State) : Instr → Option (Nat × Nat × AccessKind)
  | .lb _ rs1 imm | .lbu _ rs1 imm => some (address s rs1 imm, 1, .load)
  | .lh _ rs1 imm | .lhu _ rs1 imm => some (address s rs1 imm, 2, .load)
  | .lw _ rs1 imm | .lwu _ rs1 imm => some (address s rs1 imm, 4, .load)
  | .ld _ rs1 imm => some (address s rs1 imm, 8, .load)
  | .sb rs1 _ imm => some (address s rs1 imm, 1, .store)
  | .sh rs1 _ imm => some (address s rs1 imm, 2, .store)
  | .sw rs1 _ imm => some (address s rs1 imm, 4, .store)
  | .sd rs1 _ imm => some (address s rs1 imm, 8, .store)
  | _ => none

/-- The instruction `i` at the pc has nothing to stop it: it is fetched, it decodes, its cost fits, and its memory access,
if it makes one, is in bounds to the last byte (40_dispatch.md R120, R125; 20_memory.md R51). -/
def Unhindered (s : State) (i : Instr) : Prop :=
  Fetchable s ∧ DecodesTo s i ∧ Fits s i ∧ ∀ a n k, dataAccess s i = some (a, n, k) → a + n ≤ s.cfg.memSize

/-- `s` with other outputs of the step before it (log 7). -/
def withOutputs (s : State) (g : Option Signal) (e : Option StoreEvent) : State :=
  { s with arch := { s.arch with signal := g, storeEvent := e } }

end Sys2Proof.Spec

open Sys2Proof Sys2Proof.Machine Sys2Proof.Spec

/-! ### Extension M -/

/-- R140 to R144: MUL, MULH, MULHSU, MULHU; encoding, result, frame and completion. -/
def Obligations.MultiplyInstructionsGiveTheirPartOfTheProduct : Prop :=
  RegReg .M [.w32, .w64] 0x02000033 .mul (fun s a b => BitVec.ofInt s.W (a.toInt * b.toInt)) ∧
  RegReg .M [.w32, .w64] 0x02001033 .mulh (fun s a b => BitVec.ofInt s.W ((a.toInt * b.toInt) / 2 ^ s.W)) ∧
  RegReg .M [.w32, .w64] 0x02002033 .mulhsu (fun s a b => BitVec.ofInt s.W ((a.toInt * (b.toNat : Int)) / 2 ^ s.W)) ∧
  RegReg .M [.w32, .w64] 0x02003033 .mulhu (fun s a b => BitVec.ofNat s.W ((a.toNat * b.toNat) / 2 ^ s.W))

/-- R145 to R148, R150: DIV, DIVU, REM, REMU with the edge-case table; encoding, result, frame and completion. -/
def Obligations.DivideInstructionsFollowTheEdgeCaseTable : Prop :=
  RegReg .M [.w32, .w64] 0x02004033 .div (fun s a b =>
    if b = 0 then BitVec.allOnes s.W
    else if a = BitVec.intMin s.W ∧ b = BitVec.allOnes s.W then BitVec.intMin s.W
    else BitVec.ofInt s.W (a.toInt.tdiv b.toInt)) ∧
  RegReg .M [.w32, .w64] 0x02005033 .divu (fun s a b =>
    if b = 0 then BitVec.allOnes s.W else BitVec.ofNat s.W (a.toNat / b.toNat)) ∧
  RegReg .M [.w32, .w64] 0x02006033 .rem (fun s a b =>
    if b = 0 then a
    else if a = BitVec.intMin s.W ∧ b = BitVec.allOnes s.W then 0
    else BitVec.ofInt s.W (a.toInt.tmod b.toInt)) ∧
  RegReg .M [.w32, .w64] 0x02007033 .remu (fun s a b =>
    if b = 0 then a else BitVec.ofNat s.W (a.toNat % b.toNat))

/-- R149 (derived by the spec): the high and low parts make up the exact product, in the three readings. -/
def Obligations.HighAndLowPartsMakeTheExactProduct : Prop :=
  ∀ (wd : Width) (a b : BitVec wd.bits),
    (mulHighUU a b).toNat * 2 ^ wd.bits + (mulLow a b).toNat = a.toNat * b.toNat ∧
    (mulHighSS a b).toInt * 2 ^ wd.bits + ((mulLow a b).toNat : Int) = a.toInt * b.toInt ∧
    (mulHighSU a b).toInt * 2 ^ wd.bits + ((mulLow a b).toNat : Int) = a.toInt * (b.toNat : Int)

/-- R151 (derived by the spec): dividend = quotient * divisor + remainder modulo 2^W for every operand pair, signed and
unsigned, and an unsigned remainder by a non-zero divisor is below it. -/
def Obligations.QuotientTimesDivisorPlusRemainderIsDividend : Prop :=
  ∀ (wd : Width) (a b : BitVec wd.bits),
    divUnsigned a b * b + remUnsigned a b = a ∧ divSigned a b * b + remSigned a b = a ∧
    (b ≠ 0 → (remUnsigned a b).toNat < b.toNat)

/-- R130: an M instruction completes in every state in which it passes the stages before the execution: pc + 4, charged,
memory untouched, no signal. -/
def Obligations.ExtensionMCompletesInEveryState : Prop :=
  ∀ (s : State) (i : Instr), Fetchable s → DecodesTo s i → Fits s i → i.ext = .M →
    Completes s (step s) fun c => c.pc = s.arch.pc + 4 ∧ c.cycles.toNat = s.arch.cycles.toNat + s.cfg.cost i ∧
      (∀ a, c.mem.read a = s.arch.mem.read a) ∧ c.signal = none ∧ c.storeEvent = none

/-! ### Extension I, arithmetic and logic -/

/-- R160, R161: LUI and AUIPC. -/
def Obligations.UpperImmediateInstructions : Prop :=
  Encoded .I [.w32, .w64] 0x0000007f 0x00000037 (operandsU .lui) ∧
  Encoded .I [.w32, .w64] 0x0000007f 0x00000017 (operandsU .auipc) ∧
  ∀ (s : State) (rd : Reg) (imm20 : BitVec 20),
    WritesReg s (exec (.lui rd imm20) s) rd (BitVec.ofInt s.W (imm20.toInt * 2 ^ 12)) ∧
    WritesReg s (exec (.auipc rd imm20) s) rd (BitVec.ofInt s.W (s.arch.pc.toNat + imm20.toInt * 2 ^ 12))

/-- R162, R165 to R167: ADDI, XORI, ORI, ANDI with the sign-extended immediate. -/
def Obligations.AddAndLogicImmediates : Prop :=
  RegImm [.w32, .w64] 0x00000013 .addi (fun s a imm => BitVec.ofInt s.W (a.toNat + imm.toInt)) ∧
  RegImm [.w32, .w64] 0x00004013 .xori (fun s a imm => a ^^^ BitVec.ofInt s.W imm.toInt) ∧
  RegImm [.w32, .w64] 0x00006013 .ori (fun s a imm => a ||| BitVec.ofInt s.W imm.toInt) ∧
  RegImm [.w32, .w64] 0x00007013 .andi (fun s a imm => a &&& BitVec.ofInt s.W imm.toInt)

/-- R163, R164, R174, R175: SLTI, SLTIU, SLT, SLTU; SLTIU compares with the sign-extended immediate, unsigned. -/
def Obligations.ComparisonsWriteOneOrZero : Prop :=
  RegImm [.w32, .w64] 0x00002013 .slti (fun s a imm => if a.toInt < imm.toInt then 1#s.W else 0#s.W) ∧
  RegImm [.w32, .w64] 0x00003013 .sltiu
    (fun s a imm => if a.toNat < (BitVec.ofInt s.W imm.toInt).toNat then 1#s.W else 0#s.W) ∧
  RegReg .I [.w32, .w64] 0x00002033 .slt (fun s a b => if a.toInt < b.toInt then 1#s.W else 0#s.W) ∧
  RegReg .I [.w32, .w64] 0x00003033 .sltu (fun s a b => if a.toNat < b.toNat then 1#s.W else 0#s.W)

/-- R168 to R170: SLLI, SRLI, SRAI. -/
def Obligations.ShiftsByImmediate : Prop :=
  ShiftImm 0x00001013 .slli (fun s a n => BitVec.ofNat s.W (a.toNat * 2 ^ n)) ∧
  ShiftImm 0x00005013 .srli (fun s a n => BitVec.ofNat s.W (a.toNat / 2 ^ n)) ∧
  ShiftImm 0x40005013 .srai (fun s a n => BitVec.ofInt s.W (a.toInt / 2 ^ n))

/-- R171, R172, R176, R179, R180: ADD, SUB, XOR, OR, AND. -/
def Obligations.AddSubtractAndLogic : Prop :=
  RegReg .I [.w32, .w64] 0x00000033 .add (fun s a b => BitVec.ofNat s.W (a.toNat + b.toNat)) ∧
  RegReg .I [.w32, .w64] 0x40000033 .sub (fun s a b => BitVec.ofInt s.W ((a.toNat : Int) - (b.toNat : Int))) ∧
  RegReg .I [.w32, .w64] 0x00004033 .xor (fun _ a b => a ^^^ b) ∧
  RegReg .I [.w32, .w64] 0x00006033 .or (fun _ a b => a ||| b) ∧
  RegReg .I [.w32, .w64] 0x00007033 .and (fun _ a b => a &&& b)

/-- R173, R177, R178: SLL, SRL, SRA by `b[4:0]` at W = 32 and `b[5:0]` at W = 64. -/
def Obligations.ShiftsByRegister : Prop :=
  RegReg .I [.w32, .w64] 0x00001033 .sll (fun s a b => BitVec.ofNat s.W (a.toNat * 2 ^ (b.toNat % s.W))) ∧
  RegReg .I [.w32, .w64] 0x00005033 .srl (fun s a b => BitVec.ofNat s.W (a.toNat / 2 ^ (b.toNat % s.W))) ∧
  RegReg .I [.w32, .w64] 0x40005033 .sra (fun s a b => BitVec.ofInt s.W (a.toInt / 2 ^ (b.toNat % s.W)))

/-- R181, R185, R186: ADDIW, ADDW, SUBW; W = 64 only, the 32-bit result sign-extended. -/
def Obligations.WordAddAndSubtract : Prop :=
  RegImm [.w64] 0x0000001b .addiw
    (fun s a imm => (BitVec.ofInt 32 (((a.toNat % 2 ^ 32 : Nat) : Int) + imm.toInt)).signExtend s.W) ∧
  RegReg .I [.w64] 0x0000003b .addw
    (fun s a b => (BitVec.ofNat 32 (a.toNat % 2 ^ 32 + b.toNat % 2 ^ 32)).signExtend s.W) ∧
  RegReg .I [.w64] 0x4000003b .subw
    (fun s a b => (BitVec.ofInt 32 (((a.toNat % 2 ^ 32 : Nat) : Int) - ((b.toNat % 2 ^ 32 : Nat) : Int))).signExtend s.W) ∧
  IllegalAt32 0x0000707f 0x0000001b ∧ IllegalAt32 0xfe00707f 0x0000003b ∧ IllegalAt32 0xfe00707f 0x4000003b

/-- R182 to R184: SLLIW, SRLIW, SRAIW; W = 64 only. -/
def Obligations.WordShiftsByImmediate : Prop :=
  WordShiftImm 0x0000101b .slliw (fun s a n => (BitVec.ofNat 32 ((a.toNat % 2 ^ 32) * 2 ^ n)).signExtend s.W) ∧
  WordShiftImm 0x0000501b .srliw (fun s a n => (BitVec.ofNat 32 ((a.toNat % 2 ^ 32) / 2 ^ n)).signExtend s.W) ∧
  WordShiftImm 0x4000501b .sraiw (fun s a n => (BitVec.ofInt 32 ((a.setWidth 32).toInt / 2 ^ n)).signExtend s.W)

/-- R187 to R189: SLLW, SRLW, SRAW by five bits of the second operand; W = 64 only. -/
def Obligations.WordShiftsByRegister : Prop :=
  RegReg .I [.w64] 0x0000103b .sllw
    (fun s a b => (BitVec.ofNat 32 ((a.toNat % 2 ^ 32) * 2 ^ (b.toNat % 32))).signExtend s.W) ∧
  RegReg .I [.w64] 0x0000503b .srlw
    (fun s a b => (BitVec.ofNat 32 ((a.toNat % 2 ^ 32) / 2 ^ (b.toNat % 32))).signExtend s.W) ∧
  RegReg .I [.w64] 0x4000503b .sraw
    (fun s a b => (BitVec.ofInt 32 ((a.setWidth 32).toInt / 2 ^ (b.toNat % 32))).signExtend s.W) ∧
  IllegalAt32 0xfe00707f 0x0000103b ∧ IllegalAt32 0xfe00707f 0x0000503b ∧ IllegalAt32 0xfe00707f 0x4000503b

/-! ### Extension I, loads and stores -/

/-- R221 to R226, R233: LB, LH, LW, LBU, LHU; little-endian, sign- or zero-extended, any alignment; a load with rd = 0
still makes the access. -/
def Obligations.LoadsOfBothWidths : Prop :=
  Load [.w32, .w64] 0x00000003 .lb 1 (fun s m => (m 0).signExtend s.W) ∧
  Load [.w32, .w64] 0x00001003 .lh 2 (fun s m => (m 1 ++ m 0).signExtend s.W) ∧
  Load [.w32, .w64] 0x00002003 .lw 4 (fun s m => (m 3 ++ m 2 ++ m 1 ++ m 0).signExtend s.W) ∧
  Load [.w32, .w64] 0x00004003 .lbu 1 (fun s m => (m 0).setWidth s.W) ∧
  Load [.w32, .w64] 0x00005003 .lhu 2 (fun s m => (m 1 ++ m 0).setWidth s.W)

/-- R227, R228: LWU and LD; W = 64 only. -/
def Obligations.LoadsOfWidth64Only : Prop :=
  Load [.w64] 0x00006003 .lwu 4 (fun s m => (m 3 ++ m 2 ++ m 1 ++ m 0).setWidth s.W) ∧
  Load [.w64] 0x00003003 .ld 8
    (fun s m => (m 7 ++ m 6 ++ m 5 ++ m 4 ++ m 3 ++ m 2 ++ m 1 ++ m 0).setWidth s.W) ∧
  IllegalAt32 0x0000707f 0x00006003 ∧ IllegalAt32 0x0000707f 0x00003003

/-- R229 to R232: SB, SH, SW, and SD at W = 64 only; each puts out its store event. -/
def Obligations.StoresWriteTheLowBytes : Prop :=
  Store [.w32, .w64] 0x00000023 .sb 1 ∧ Store [.w32, .w64] 0x00001023 .sh 2 ∧
  Store [.w32, .w64] 0x00002023 .sw 4 ∧ Store [.w64] 0x00003023 .sd 8 ∧ IllegalAt32 0x0000707f 0x00003023

/-- R53, R54: reading `n` bytes right after writing them gives the low `n` bytes of the value, and every other byte
reads as before. -/
def Obligations.MemoryReadsBackWhatWasWritten : Prop :=
  ∀ (m : Memory) (a n v : Nat), (m.writeLE a n v).readLE a n = v % 2 ^ (8 * n) ∧
    ∀ b, b < a ∨ a + n ≤ b → (m.writeLE a n v).read b = m.read b

/-- R55, R63 (derived by the spec): a word stored with SW and then fetched is the 32-bit value that was stored, with no
fence between. -/
def Obligations.StoredWordIsFetched : Prop :=
  ∀ (s : State) (rs1 rs2 : Reg) (imm : BitVec 12), address s rs1 imm + 4 ≤ s.cfg.memSize →
    Completes s (exec (.sw rs1 rs2 imm) s) fun c =>
      State.fetch { cfg := s.cfg, arch := { c with pc := BitVec.ofNat s.W (address s rs1 imm) } } =
        .ok ((s.x rs2).setWidth 32)

/-! ### Extension I, control transfer -/

/-- R251 to R256 (with R250): the conditional branches, taken and not taken. -/
def Obligations.ConditionalBranches : Prop :=
  Branch 0x00000063 .beq (fun _ a b => a = b) ∧ Branch 0x00001063 .bne (fun _ a b => a ≠ b) ∧
  Branch 0x00004063 .blt (fun _ a b => a.toInt < b.toInt) ∧ Branch 0x00005063 .bge (fun _ a b => b.toInt ≤ a.toInt) ∧
  Branch 0x00006063 .bltu (fun _ a b => a.toNat < b.toNat) ∧ Branch 0x00007063 .bgeu (fun _ a b => b.toNat ≤ a.toNat)

/-- R257: JAL. -/
def Obligations.JumpAndLink : Prop :=
  Encoded .I [.w32, .w64] 0x0000007f 0x0000006f (operandsJ .jal) ∧
  ∀ (s : State) (rd : Reg) (off : BitVec 21), Completes s (exec (.jal rd off) s) fun c =>
    Became s.arch c (some (rd, BitVec.ofNat s.W (s.arch.pc.toNat + 4)))
      (BitVec.ofInt s.W (s.arch.pc.toNat + off.toInt)) none

/-- R258: JALR; the target uses the old `x[rs1]` and has bit 0 cleared. -/
def Obligations.JumpAndLinkRegister : Prop :=
  Encoded .I [.w32, .w64] 0x0000707f 0x00000067 (operandsI .jalr) ∧
  ∀ (s : State) (rd rs1 : Reg) (imm : BitVec 12), Completes s (exec (.jalr rd rs1 imm) s) fun c =>
    Became s.arch c (some (rd, BitVec.ofNat s.W (s.arch.pc.toNat + 4)))
      (BitVec.ofNat s.W (2 * (address s rs1 imm / 2))) none

/-! ### Extension I, fence and environment -/

/-- R270: FENCE is a no-operation, whatever its operand fields hold; it is charged; FENCE.I is illegal. -/
def Obligations.FenceOnlyAdvances : Prop :=
  Encoded .I [.w32, .w64] 0x0000707f 0x0000000f (fun _ => .fence) ∧
  (∀ wd exts, decode wd exts 0x0000100f = none) ∧
  ∀ s : State, Completes s (exec .fence s) (fun c => Became s.arch c none (s.arch.pc + 4) none) ∧
    (Fetchable s → DecodesTo s .fence → Fits s .fence →
      Completes s (step s) fun c => c.cycles.toNat = s.arch.cycles.toNat + s.cfg.cost .fence)

/-- R271, R272, R308: ECALL and EBREAK complete and signal; the step charges them and its outcome is the signal with
the state after the instruction. -/
def Obligations.EnvironmentInstructionsCompleteAndSignal : Prop :=
  Encoded .I [.w32, .w64] 0xffffffff 0x00000073 (fun _ => .ecall) ∧
  Encoded .I [.w32, .w64] 0xffffffff 0x00100073 (fun _ => .ebreak) ∧
  ∀ s : State,
    Completes s (exec .ecall s) (fun c => Became s.arch c none (s.arch.pc + 4) (some .environmentCall)) ∧
    Completes s (exec .ebreak s) (fun c => Became s.arch c none (s.arch.pc + 4) (some .breakpoint)) ∧
    (Fetchable s → DecodesTo s .ecall → Fits s .ecall →
      ∃ t, outcome s = .signal .environmentCall t ∧ t.arch.pc.toNat = (s.arch.pc.toNat + 4) % 2 ^ s.W ∧
        t.arch.cycles.toNat = s.arch.cycles.toNat + s.cfg.cost .ecall) ∧
    (Fetchable s → DecodesTo s .ebreak → Fits s .ebreak →
      ∃ t, outcome s = .signal .breakpoint t ∧ t.arch.pc.toNat = (s.arch.pc.toNat + 4) % 2 ^ s.W ∧
        t.arch.cycles.toNat = s.arch.cycles.toNat + s.cfg.cost .ebreak)

/-! ### Whole-machine rules about executing an instruction -/

/-- R22: register 0 reads 0 and a write to it has no effect; a write to another register changes that one only. -/
def Obligations.RegisterZeroIsHardWired : Prop :=
  ∀ (w : Nat) (c : Arch w) (i : Reg) (v : BitVec w),
    c.x 0 = 0 ∧ c.setX 0 v = c ∧ ∀ q, (c.setX i v).x q = if q = 0 then 0 else if q = i then v else c.x q

/-- R124: only JAL, JALR and the conditional branches return an explicit pc. -/
def Obligations.OnlyControlTransfersSetThePc : Prop :=
  ∀ (i : Instr) (s : State) (c : Arch s.W), exec i s = .next ⟨s.cfg, c⟩ → i.transfersControl = false →
    c.pc = s.arch.pc + 4

/-- R120 (at most one register write), R22, R110: only `rd` may change; with `rd = 0` no register does; register 0 reads
0. -/
def Obligations.OnlyTheDestinationRegisterChanges : Prop :=
  ∀ (i : Instr) (s : State) (c : Arch s.W), exec i s = .next ⟨s.cfg, c⟩ →
    c.x 0 = 0 ∧ (∀ q, q ≠ i.dest → c.x q = s.arch.x q) ∧ (i.dest = 0 → ∀ q, c.x q = s.arch.x q)

/-- R56, R62: only SB, SH, SW and SD change memory or put out a store event, and theirs has their width. -/
def Obligations.OnlyStoresChangeMemory : Prop :=
  ∀ (i : Instr) (s : State) (c : Arch s.W), exec i s = .next ⟨s.cfg, c⟩ →
    c.storeEvent.map (·.size) = i.storeSize ∧
    (i.storeSize = none → ∀ a, c.mem.read a = s.arch.mem.read a)

/-- R8, R27, R28: executing an instruction writes no configuration parameter, not `cycles` and not `budget`. -/
def Obligations.InstructionsDoNotReachCountersOrConfiguration : Prop :=
  ∀ (i : Instr) (s t : State), exec i s = .next t →
    t.cfg = s.cfg ∧ t.arch.cycles = s.arch.cycles ∧ t.arch.budget = s.arch.budget

/-- R300, R304, R305: only ECALL signals EnvironmentCall, only EBREAK signals Breakpoint. -/
def Obligations.OnlyEcallAndEbreakSignal : Prop :=
  ∀ (i : Instr) (s t : State), exec i s = .next t →
    (t.arch.signal = some .environmentCall ↔ i = .ecall) ∧ (t.arch.signal = some .breakpoint ↔ i = .ebreak)

/-- R302: executing an instruction of the instance's width raises nothing but the MemoryFault of a load or a store, of its
own size and out of bounds; no other instruction faults. -/
def Obligations.OnlyLoadsAndStoresFault : Prop :=
  ∀ (i : Instr) (s : State) (f : Fault), i.fitsWidth s.cfg.width = true → exec i s = .fault f →
    ∃ a n, s.cfg.memSize < a + n ∧ (f = .memoryFault a n .load ∧ i.loadSize = some n ∨
      f = .memoryFault a n .store ∧ i.storeSize = some n)

/-- The model's choice (log 9), resting for the word on R99 (LWU, LD, SD), R102 and R111 (the word forms) and R109 (a
shift by 32 or more): an instruction that does not exist at the instance's width answers the DecodeError its word has
there. -/
def Obligations.InstructionOfTheOtherWidthIsIllegal : Prop :=
  ∀ (i : Instr) (s : State), i.fitsWidth s.cfg.width = false → exec i s = .fault (.decodeError (encode i))

/-! ### The decoder and the encoder -/

/-- R105: decoding an encoded instruction gives it back, for every instruction the decoder can return, with every
operand at every value the encoding admits, at both widths and every set of extensions that has it. -/
def Obligations.DecodeOfEncodeIsTheInstruction : Prop :=
  ∀ (wd : Width) (exts : List Extension) (i : Instr), i.wellFormed wd exts = true →
    decode wd exts (encode i) = some i

/-- R105 (derived by the spec): encoding what a recognised word decodes to gives the word back, but for FENCE, whose ignored
fields are lost; and what the decoder returns is well-formed. -/
def Obligations.EncodeOfDecodeIsTheWord : Prop :=
  ∀ (wd : Width) (exts : List Extension) (w : InsnWord) (i : Instr), decode wd exts w = some i →
    i.wellFormed wd exts = true ∧ (i ≠ .fence → encode i = w)

/-- R94: the decoder of extension M recognises a word exactly when its opcode is 0b0110011 and its funct7 0b0000001,
funct3 selects the operation, and the operands are the register fields. -/
def Obligations.ExtensionMRecognisesItsSignature : Prop :=
  ∀ (wd : Width) (w : InsnWord), decodeExt wd .M w =
    if w.extractLsb' 0 7 = 0b0110011#7 ∧ w.extractLsb' 25 7 = 0b0000001#7 then
      some (operandsR (operationM (w.extractLsb' 12 3)) w)
    else none

/-- R104 (derived by the spec): the rows that apply at one width differ in a bit both masks cover. -/
def Obligations.OpcodeMapRowsAreDisjoint : Prop :=
  ∀ wd : Width, (opcodeMap.filter fun r => r.widths.contains wd).Pairwise
    fun r q => r.pat &&& q.mask ≠ q.pat &&& r.mask

/-- R104, R93 (derived by the spec): the priority order of the extensions is immaterial, and no word is recognised by two of
them. -/
def Obligations.DecoderPriorityIsImmaterial : Prop :=
  ∀ (wd : Width) (w : InsnWord), decode wd [.I, .M] w = decode wd [.M, .I] w ∧
    (decodeExt wd .I w = none ∨ decodeExt wd .M w = none)

/-- R108: of the words with the SYSTEM opcode only ECALL and EBREAK are recognised. -/
def Obligations.SystemWordsAreEcallAndEbreakOnly : Prop :=
  ∀ (wd : Width) (exts : List Extension) (w : InsnWord), w.extractLsb' 0 7 = 0b1110011#7 →
    w ≠ 0x00000073 → w ≠ 0x00100073 → decode wd exts w = none

/-- R80, R112 (R112 derived by the spec): a word whose two low bits are not 0b11 is illegal; so are the all-zero and the
all-ones word. -/
def Obligations.WordsOutsideTheOpcodeSpaceAreIllegal : Prop :=
  ∀ (wd : Width) (exts : List Extension),
    (∀ w : InsnWord, w.extractLsb' 0 2 ≠ 0b11#2 → decode wd exts w = none) ∧
    decode wd exts 0x00000000 = none ∧ decode wd exts 0xffffffff = none

/-- Sanity: a few words of 96_vectors_decode.md, one of each format, read as the instruction they stand for. -/
def Obligations.SampleWordsDecode : Prop :=
  decode .w32 [.I, .M] 0x0220f1b3 = some (.remu 3 1 2) ∧ decode .w32 [.I, .M] 0xffc0a183 = some (.lw 3 1 (-4)) ∧
  decode .w64 [.I, .M] 0x7e20bfa3 = some (.sd 1 2 2047) ∧ decode .w32 [.I, .M] 0x8041d063 = some (.bge 3 4 (-4096)) ∧
  decode .w64 [.I, .M] 0x123452b7 = some (.lui 5 0x12345) ∧ decode .w32 [.I, .M] 0xffdff06f = some (.jal 0 (-4)) ∧
  decode .w64 [.I, .M] 0x43f0d193 = some (.srai 3 1 63) ∧ decode .w32 [.I, .M] 0x43f0d193 = none ∧
  decode .w64 [.I, .M] 0x00100073 = some .ebreak

/-! ### The step -/

/-- R120, R121, R123, R127: when the word at the pc decodes to `i` and `i` fits the budget, the step is the execution of
`i` at that state, with its cost charged when it completes. -/
def Obligations.StepRunsTheDecodedInstruction : Prop :=
  ∀ (s : State) (i : Instr), Fetchable s → DecodesTo s i → Fits s i →
    (∀ t, exec i s = .next t → step s = .next { t with
      arch := { t.arch with cycles := BitVec.ofNat 64 (t.arch.cycles.toNat + t.cfg.cost i) } }) ∧
    (∀ f, exec i s = .fault f → step s = .fault f)

/-- R121: the fetch raises MemoryFault exactly when `pc + 4 > MEM_SIZE`, else gives the four bytes at the pc,
little-endian, at any alignment. -/
def Obligations.FetchFaultsExactlyOutOfBounds : Prop :=
  ∀ s : State, (s.cfg.memSize < s.arch.pc.toNat + 4 → step s = .fault (.memoryFault s.arch.pc.toNat 4 .fetch)) ∧
    (Fetchable s → s.fetch = .ok (wordAtPc s))

/-- R122, R301, R106: a word no enabled extension recognises is a DecodeError that records it, whatever the budget. -/
def Obligations.IllegalWordIsADecodeError : Prop :=
  ∀ s : State, Fetchable s → decode s.cfg.width s.cfg.extensions (wordAtPc s) = none →
    step s = .fault (.decodeError (wordAtPc s)) ∧ outcome s = .fault (.decodeError (wordAtPc s)) s

/-- R126: an instruction whose cost, at least 1, does not fit the budget is not executed; it is the halt, with the state as
it was; one whose cost fits is executed. -/
def Obligations.BudgetHaltsBeforeTheInstruction : Prop :=
  ∀ (s : State) (i : Instr), Fetchable s → DecodesTo s i → 1 ≤ s.cfg.cost i ∧
    (s.arch.budget.toNat < s.arch.cycles.toNat + s.cfg.cost i →
      step s = .fault .cycleBudgetExceeded ∧ outcome s = .halt s) ∧
    (s.arch.cycles.toNat + s.cfg.cost i ≤ s.arch.budget.toNat → step s = Result.charged i (exec i s))

/-- R127: an instruction that completes is charged exactly its cost, which is at least 1, without overflow; the new value is
at most the budget. -/
def Obligations.CompletedInstructionIsCharged : Prop :=
  ∀ s t : State, step s = .next t → ∃ i, DecodesTo s i ∧ 1 ≤ s.cfg.cost i ∧
    t.arch.cycles.toNat = s.arch.cycles.toNat + s.cfg.cost i ∧ t.arch.cycles.toNat ≤ s.arch.budget.toNat

/-- R310: a step reports the first condition in the order fetch MemoryFault, DecodeError, CycleBudgetExceeded, the
instruction's own fault, its signal. -/
def Obligations.ConditionsAreReportedInStageOrder : Prop :=
  ∀ s : State,
    (¬ Fetchable s → outcome s = .fault (.memoryFault s.arch.pc.toNat 4 .fetch) s) ∧
    (Fetchable s → decode s.cfg.width s.cfg.extensions (wordAtPc s) = none →
      outcome s = .fault (.decodeError (wordAtPc s)) s) ∧
    ∀ i, Fetchable s → DecodesTo s i →
      (¬ Fits s i → outcome s = .halt s) ∧
      (Fits s i → ∀ a n k, exec i s = .fault (.memoryFault a n k) → outcome s = .fault (.memoryFault a n k) s) ∧
      (Fits s i → ∀ t g, exec i s = .next t → t.arch.signal = some g → outcome s = .signal g (t.charge i)) ∧
      (Fits s i → ∀ t, exec i s = .next t → t.arch.signal = none → outcome s = .next (t.charge i))

/-- R125, all or none: an unhindered instruction completes, and the step is its next state with the charge; every other
step changes nothing, and it is a halt, a DecodeError or the MemoryFault of an access that is out of bounds; after the
budget check the one fault is that of the instruction's single access. That a fault and a halt give back the state
before the step is how the model words these outcomes (log 8). -/
def Obligations.NoPartialEffects : Prop :=
  ∀ s : State,
    (∀ i, Unhindered s i → ∃ t, exec i s = .next t ∧ step s = .next (t.charge i)) ∧
    ((∀ i, ¬ Unhindered s i) → outcome s = .halt s ∨ (∃ w, outcome s = .fault (.decodeError w) s) ∨
      ∃ a n k, s.cfg.memSize < a + n ∧ outcome s = .fault (.memoryFault a n k) s) ∧
    ∀ i a n k, Fetchable s → DecodesTo s i → Fits s i → dataAccess s i = some (a, n, k) →
      s.cfg.memSize < a + n → outcome s = .fault (.memoryFault a n k) s

/-- R37 (the block keeps no record of a past fault or signal): two states that differ in the outputs of earlier steps only
step alike. The outputs are the model's fields (log 7). -/
def Obligations.StepDoesNotReadEarlierOutputs : Prop :=
  ∀ (s : State) (g : Option Signal) (e : Option StoreEvent), step (withOutputs s g e) = step s

/-- R123 (execute-dispatch is total): no step is refused. -/
def Obligations.NoStepIsRefused : Prop :=
  ∀ (s : State) (r : Refusal), step s ≠ .refused r

/-- R312, R128 (d): after a halt the host raises the budget and the next step executes the instruction at the pc. -/
def Obligations.HostResumesAfterAHalt : Prop :=
  ∀ (s : State) (b : BitVec 64), outcome s = .halt s → ∃ i, DecodesTo s i ∧
    (s.arch.cycles.toNat + s.cfg.cost i ≤ b.toNat →
      step (s.hostSetBudget b) = Result.charged i (exec i (s.hostSetBudget b)))

/-! ### Invariant, runs, reset -/

/-- R28, R50 and the canonical form of memory (log 6): every step keeps a legal machine legal, and the
parameters and the budget as they are. -/
def Obligations.EveryStepKeepsTheInvariant : Prop :=
  ∀ s t : State, s.Inv → step s = .next t → t.Inv ∧ t.cfg = s.cfg ∧ t.arch.budget = s.arch.budget

/-- R340, R341, R342: after reset every register and `cycles` is 0, pc, budget and memory are what the host passed. -/
def Obligations.ResetStateIsAsGiven : Prop :=
  ∀ (c : Config) (p : ResetParams c.width.bits),
    (∀ q, (State.resetWith c p).arch.x q = 0) ∧ (State.resetWith c p).arch.pc = p.resetPc ∧
    (State.resetWith c p).arch.cycles = 0 ∧ (State.resetWith c p).arch.budget = p.budget ∧
    ∀ a, (State.resetWith c p).arch.mem.read a = p.memInit.read a

/-- A reset with a legal configuration and image leaves a legal machine; so does the reset of the reference instance, whose
parameters are the model's choice (log 1, log 4). -/
def Obligations.ResetMeetsTheInvariant : Prop :=
  State.reset.Inv ∧ ∀ (c : Config) (p : ResetParams c.width.bits), c.wf → p.memInit.wf → p.memInit.within c.memSize →
    (State.resetWith c p).Inv

/-- R131 (derived by the spec): a run from a state with `cycles <= budget` ends within `budget - cycles` completed
instructions and one more step. -/
def Obligations.BudgetBoundsEveryRun : Prop :=
  ∀ s : State, s.arch.cycles.toNat ≤ s.arch.budget.toNat →
    (run (s.arch.budget.toNat - s.arch.cycles.toNat + 1) s).ended = true
end

