-- ==== Sys2Proof/Laws/Encoding.lean ====
section
/-! SUPPORT. Laws/Encoding.lean: fields of placed fields, the opcode map has no overlap, and a word that selects a row
decodes by that row. -/

namespace Sys2Proof

/-! ### Fields of a word put together from fields -/

theorem getLsbD_place {n lo : Nat} (v : BitVec n) (i : Nat) :
    (place lo v).getLsbD i = (decide (i < 32) && decide (lo ≤ i) && v.getLsbD (i - lo)) := by
  simp only [place, BitVec.getLsbD_shiftLeft, BitVec.getLsbD_setWidth]
  by_cases h2 : lo ≤ i
  · by_cases h1 : i < 32
    · have h3 : i - lo < 32 := by omega
      simp [h1, h2, h3, Nat.not_lt.2 h2]
    · simp [h1]
  · simp [h2, Nat.lt_of_not_le h2]

/-- The field a value was placed in is the value. -/
theorem field_place_same {n lo : Nat} (v : BitVec n) (h : lo + n ≤ 32) : field (place lo v) lo n = v := by
  apply BitVec.eq_of_getLsbD_eq
  intro i hi
  simp only [field, BitVec.getLsbD_extractLsb', getLsbD_place]
  have h1 : lo + i < 32 := by omega
  simp [hi, h1]

/-- A field off the place is 0. -/
theorem field_place_other {n lo k m : Nat} (v : BitVec n) (h : k + m ≤ lo ∨ lo + n ≤ k) :
    field (place lo v) k m = 0#m := by
  apply BitVec.eq_of_getLsbD_eq
  intro i hi
  simp only [field, BitVec.getLsbD_extractLsb', getLsbD_place, BitVec.getLsbD_zero]
  by_cases h1 : lo ≤ k + i
  · have h2 : n ≤ k + i - lo := by omega
    simp [BitVec.getLsbD_of_ge v _ h2]
  · simp [h1]

theorem field_or (a b : InsnWord) (k m : Nat) : field (a ||| b) k m = field a k m ||| field b k m := by
  simp [field, BitVec.extractLsb'_or]

/-- A place a mask does not cover is masked away. -/
theorem place_and_mask {n lo : Nat} (v : BitVec n) {mask : InsnWord}
    (h : mask &&& place lo (BitVec.allOnes n) = 0#32) : place lo v &&& mask = 0#32 := by
  apply BitVec.eq_of_getLsbD_eq
  intro i hi
  have hb := congrArg (fun x => BitVec.getLsbD x i) h
  simp only [BitVec.getLsbD_and, getLsbD_place, BitVec.getLsbD_allOnes, BitVec.getLsbD_zero] at hb
  simp only [BitVec.getLsbD_and, getLsbD_place, BitVec.getLsbD_zero]
  by_cases hv : i - lo < n
  · simp only [hv, decide_true, Bool.and_true] at hb
    cases hm : mask.getLsbD i
    · simp
    · rw [hm, Bool.true_and] at hb
      rw [hb]
      rfl
  · simp [BitVec.getLsbD_of_ge v _ (Nat.not_lt.1 hv)]

theorem or_and_mask {a b mask : InsnWord} (h : b &&& mask = 0#32) : (a ||| b) &&& mask = a &&& mask := by
  apply BitVec.eq_of_getLsbD_eq
  intro i hi
  have hb := congrArg (fun x => BitVec.getLsbD x i) h
  simp only [BitVec.getLsbD_and, BitVec.getLsbD_zero] at hb
  simp only [BitVec.getLsbD_and, BitVec.getLsbD_or]
  cases ha : a.getLsbD i <;> cases hm : mask.getLsbD i <;> simp_all

/-! ### The opcode map -/

/-- No word selects two disjoint rows. -/
theorem Row.not_selects_of_disjoint {r q : Row} {w : InsnWord} (h : r.disjoint q) (hr : r.selects w = true) :
    q.selects w = false := by
  cases hq : q.selects w
  · rfl
  · simp only [Row.selects, beq_iff_eq] at hr hq
    refine absurd ?_ h
    rw [← hr, ← hq, BitVec.and_assoc, BitVec.and_assoc, BitVec.and_comm r.mask q.mask]

/-- Every row of extension M has opcode 0x33 and funct7 1, so 0x33 is the one opcode it can share with extension I
(30_encoding.md R104). -/
theorem rowsM_signature : ∀ r ∈ opcodeMap, r.ext = .M → opcodeF r.pat = 0b0110011 ∧ funct7F r.pat = 0b0000001 := by
  decide

/-- Under opcode 0x33 every row of extension I has funct7 0 or 0b0100000 (30_encoding.md R104). -/
theorem rowsI_funct7 : ∀ r ∈ opcodeMap, r.ext = .I → opcodeF r.pat = 0b0110011 →
    funct7F r.pat = 0b0000000 ∨ funct7F r.pat = 0b0100000 := by
  decide

/-- Two rows of a pairwise disjoint list that one word selects are the same row. -/
theorem find?_eq_of_disjoint {l : List Row} (hl : l.Pairwise Row.disjoint) {r : Row} (hr : r ∈ l) {w : InsnWord}
    (hs : r.selects w = true) : l.find? (fun q => q.selects w) = some r := by
  induction l with
  | nil => exact nomatch hr
  | cons q l ih =>
    obtain ⟨hq, hl⟩ := List.pairwise_cons.1 hl
    rcases List.mem_cons.1 hr with rfl | hr
    · simp [hs]
    · have hn : q.selects w = false := by
        cases hqs : q.selects w
        · rfl
        · exact absurd hs (by simp [Row.not_selects_of_disjoint (hq r hr) hqs])
      simp [hn, ih hl hr]

theorem Row.applies_iff {wd : Width} {e : Extension} {r : Row} :
    r.applies wd e = true ↔ r.ext = e ∧ wd ∈ r.widths := by
  simp [Row.applies]

/-- A word that selects a row of an extension decodes by that row (30_encoding.md R94 to R103). -/
theorem decodeExt_of_selects {wd : Width} {r : Row} {w : InsnWord} (hm : r ∈ opcodeMap) (hw : wd ∈ r.widths)
    (hs : r.selects w = true) : decodeExt wd r.ext w = some (r.build w) := by
  have hp : ((opcodeMap.filter (fun q => q.widths.contains wd)).filter (fun q => q.ext == r.ext)).Pairwise
      Row.disjoint := (opcodeMap_disjoint wd).filter _
  have hmem : r ∈ (opcodeMap.filter (fun q => q.widths.contains wd)).filter (fun q => q.ext == r.ext) := by
    simp [hm, hw]
  have hf := find?_eq_of_disjoint hp hmem hs
  rw [List.find?_filter, List.find?_filter] at hf
  have he : opcodeMap.find? (fun q => q.applies wd r.ext && q.selects w) = some r := by
    rw [← hf]
    congr 1
    funext q
    rw [Bool.eq_iff_iff]
    simp only [Row.applies, Bool.and_eq_true, decide_eq_true_eq]
    tauto
  simp [decodeExt, he]

/-- A word no row of an extension selects is not recognised by it. -/
theorem decodeExt_eq_none_iff {wd : Width} {e : Extension} {w : InsnWord} :
    decodeExt wd e w = none ↔ ∀ r ∈ opcodeMap, r.ext = e → wd ∈ r.widths → r.selects w = false := by
  simp only [decodeExt, Option.map_eq_none_iff, List.find?_eq_none, Bool.and_eq_true, not_and, Bool.not_eq_true,
    Row.applies_iff]
  exact ⟨fun h r hr he hw => h r hr ⟨he, hw⟩, fun h r hr ⟨he, hw⟩ => h r hr he hw⟩

/-- What an extension's decoder recognises, it recognises by a row. -/
theorem decodeExt_eq_some {wd : Width} {e : Extension} {w : InsnWord} {i : Instr} (h : decodeExt wd e w = some i) :
    ∃ r ∈ opcodeMap, r.ext = e ∧ wd ∈ r.widths ∧ r.selects w = true ∧ r.build w = i := by
  simp only [decodeExt, Option.map_eq_some_iff] at h
  obtain ⟨r, hr, hb⟩ := h
  have hp := List.find?_some hr
  simp only [Bool.and_eq_true, Row.applies_iff] at hp
  exact ⟨r, List.mem_of_find?_eq_some hr, hp.1.1, hp.1.2, hp.2, hb⟩

/-- No word is recognised by two extensions (30_encoding.md R104). -/
theorem decodeExt_unique {wd : Width} {e f : Extension} {w : InsnWord} {i j : Instr}
    (hi : decodeExt wd e w = some i) (hj : decodeExt wd f w = some j) : e = f ∧ i = j := by
  obtain ⟨r, hr, hre, hrw, hrs, hrb⟩ := decodeExt_eq_some hi
  obtain ⟨q, hq, hqe, hqw, hqs, hqb⟩ := decodeExt_eq_some hj
  have h1 := find?_eq_of_disjoint (opcodeMap_disjoint wd) (r := r) (by simp [hr, hrw]) hrs
  have h2 := find?_eq_of_disjoint (opcodeMap_disjoint wd) (r := q) (by simp [hq, hqw]) hqs
  have : r = q := Option.some.inj (h1.symm.trans h2)
  subst this
  exact ⟨hre.symm.trans hqe, hrb.symm.trans hqb⟩

/-- The extensions that recognise a word are at most one (30_encoding.md R104). -/
theorem recognisers_length_le_one (wd : Width) (w : InsnWord) : (recognisers wd w).length ≤ 1 := by
  rcases hi : decodeExt wd .I w with _ | i
  · rcases hm : decodeExt wd .M w with _ | m <;> simp [recognisers, hi, hm]
  · rcases hm : decodeExt wd .M w with _ | m
    · simp [recognisers, hi, hm]
    · exact nomatch (decodeExt_unique hi hm).1

/-- The aggregate decoder, whatever the priority order: what an enabled extension recognises (30_encoding.md R93). -/
theorem decode_eq_some_iff {wd : Width} {exts : List Extension} {w : InsnWord} {i : Instr} :
    decode wd exts w = some i ↔ ∃ e ∈ exts, decodeExt wd e w = some i := by
  constructor
  · intro h
    simpa [decode] using List.exists_of_findSome?_eq_some h
  · rintro ⟨e, he, h⟩
    rcases hd : decode wd exts w with _ | j
    · have := List.findSome?_eq_none_iff.1 hd e he
      rw [h] at this
      exact nomatch this
    · obtain ⟨f, _, hf⟩ := List.exists_of_findSome?_eq_some hd
      rw [(decodeExt_unique h hf).2]

/-- A word that selects a row of an enabled extension decodes by that row. -/
theorem decode_of_selects {wd : Width} {exts : List Extension} {r : Row} {w : InsnWord} (hm : r ∈ opcodeMap)
    (hw : wd ∈ r.widths) (he : r.ext ∈ exts) (hs : w &&& r.mask = r.pat) :
    decode wd exts w = some (r.build w) :=
  decode_eq_some_iff.2 ⟨r.ext, he, decodeExt_of_selects hm hw (by simpa [Row.selects] using hs)⟩

end Sys2Proof
end

