-- ==== Sys2Proof/Laws/Memory.lean ====
section
/-! SUPPORT. Laws/Memory.lean: reading after writing, and that every memory operation keeps the canonical form. -/

namespace Sys2Proof.Machine

/-! ### One byte -/

@[simp] theorem Memory.read_nil (a : Nat) : Memory.read [] a = Memory.blank := rfl

theorem Memory.read_cons (k : Nat) (b : Byte) (m : Memory) (a : Nat) :
    Memory.read ((k, b) :: m) a = if k = a then b else Memory.read m a := rfl

theorem Memory.read_filter_ne (m : Memory) (a c : Nat) :
    Memory.read (m.filter (fun x => x.1 ≠ a)) c = if c = a then Memory.blank else Memory.read m c := by
  induction m with
  | nil => simp
  | cons x m ih =>
    obtain ⟨k, b⟩ := x
    by_cases hka : k = a
    · subst hka
      by_cases hc : c = k
      · simp [hc] at ih ⊢
        exact ih
      · have hk : ¬ k = c := fun h => hc h.symm
        simp [hc] at ih
        simp [hc, Memory.read_cons, hk, ih]
    · simp only [ne_eq, decide_not] at ih
      by_cases hc : c = a
      · subst hc
        simp [hka, Memory.read_cons, ih]
      · simp [hka, hc, Memory.read_cons, ih]

theorem Memory.read_put (m : Memory) (a c : Nat) (v : Byte) :
    (m.put a v).read c = if c = a then v else m.read c := by
  induction m with
  | nil =>
    by_cases h : c = a
    · simp [Memory.put, Memory.read_cons, h]
    · simp [Memory.put, Memory.read_cons, h, Ne.symm h]
  | cons x m ih =>
    obtain ⟨k, b⟩ := x
    simp only [Memory.put]
    by_cases h : c = a
    · subst h
      split
      · simp [Memory.read_cons]
      · split
        · simp [Memory.read_cons]
        · rename_i h1 h2
          simp [Memory.read_cons, Ne.symm h2, ih]
    · have h' : ¬ a = c := fun e => h e.symm
      split
      · simp [Memory.read_cons, h']
      · split
        · rename_i h1 h2
          subst h2
          simp [Memory.read_cons, h']
        · simp [Memory.read_cons, h, ih]

/-- Reading a byte after writing one: the written byte at its address, every other byte as before. -/
theorem Memory.read_write (m : Memory) (a c : Nat) (v : Byte) :
    (m.write a v).read c = if c = a then v else m.read c := by
  unfold Memory.write
  split
  · rename_i h
    rw [Memory.read_filter_ne, h]
  · rw [Memory.read_put]

@[simp] theorem Memory.read_write_same (m : Memory) (a : Nat) (v : Byte) : (m.write a v).read a = v := by
  simp [Memory.read_write]

theorem Memory.read_write_other {m : Memory} {a c : Nat} (v : Byte) (h : c ≠ a) :
    (m.write a v).read c = m.read c := by
  simp [Memory.read_write, h]

/-! ### Several bytes -/

/-- After `n` bytes are written from `a` on, byte `a + i` of them is byte `i` of the value, and every other address
reads as before. -/
theorem Memory.read_writeLE (n : Nat) : ∀ (m : Memory) (a v c : Nat),
    (m.writeLE a n v).read c =
      if a ≤ c ∧ c < a + n then BitVec.ofNat 8 (v / 256 ^ (c - a)) else m.read c := by
  induction n with
  | zero =>
    intro m a v c
    have h : ¬ (a ≤ c ∧ c < a + 0) := by omega
    rw [if_neg h]
    rfl
  | succ n ih =>
    intro m a v c
    show ((m.write a (BitVec.ofNat 8 v)).writeLE (a + 1) n (v / 256)).read c = _
    rw [ih]
    by_cases h1 : a + 1 ≤ c ∧ c < a + 1 + n
    · have h2 : a ≤ c ∧ c < a + (n + 1) := by omega
      have h3 : c - a = c - (a + 1) + 1 := by omega
      rw [if_pos h1, if_pos h2, h3, pow_succ', Nat.div_div_eq_div_mul]
    · rw [if_neg h1, Memory.read_write]
      by_cases h2 : c = a
      · subst h2
        simp
      · have h3 : ¬ (a ≤ c ∧ c < a + (n + 1)) := by omega
        rw [if_neg h2, if_neg h3]

theorem Memory.read_writeLE_outside {m : Memory} {a n v c : Nat} (h : c < a ∨ a + n ≤ c) :
    (m.writeLE a n v).read c = m.read c := by
  rw [Memory.read_writeLE, if_neg (by omega)]

theorem Memory.readLE_lt (m : Memory) : ∀ (n a : Nat), m.readLE a n < 256 ^ n
  | 0, _ => by simp [Memory.readLE]
  | n + 1, a => by
    have h1 := Memory.readLE_lt m n (a + 1)
    have h2 := (m.read a).isLt
    simp only [Memory.readLE, pow_succ']
    omega

/-- What is read depends only on the bytes read. -/
theorem Memory.readLE_congr {m m' : Memory} : ∀ (n a : Nat),
    (∀ i, i < n → m.read (a + i) = m'.read (a + i)) → m.readLE a n = m'.readLE a n
  | 0, _, _ => rfl
  | n + 1, a, h => by
    have h0 : m.read a = m'.read a := h 0 (by omega)
    have h1 : m.readLE (a + 1) n = m'.readLE (a + 1) n :=
      Memory.readLE_congr n (a + 1) (fun i hi => by
        have := h (i + 1) (by omega)
        rwa [show a + (i + 1) = a + 1 + i by omega] at this)
    simp only [Memory.readLE, h0, h1]

/-- What was stored is loaded back, as the low `n` bytes of the value. -/
theorem Memory.readLE_writeLE : ∀ (n : Nat) (m : Memory) (a v : Nat), (m.writeLE a n v).readLE a n = v % 256 ^ n
  | 0, _, _, v => by simp [Memory.readLE, Nat.mod_one]
  | n + 1, m, a, v => by
    have h1 := Memory.readLE_writeLE n (m.write a (BitVec.ofNat 8 v)) (a + 1) (v / 256)
    have h2 : (m.writeLE a (n + 1) v).read a = BitVec.ofNat 8 v := by
      rw [Memory.read_writeLE, if_pos (by omega)]
      simp
    have h3 : (m.writeLE a (n + 1) v).readLE (a + 1) n = v / 256 % 256 ^ n := h1
    simp only [Memory.readLE, h2, h3, BitVec.toNat_ofNat]
    rw [pow_succ' 256 n, Nat.mod_mul]

/-! ### The canonical form -/

theorem Memory.wf_nil : Memory.wf [] := ⟨List.Pairwise.nil, fun _ h => nomatch h⟩

theorem Memory.mem_put {m : Memory} {a : Nat} {v : Byte} {c : Host.Cell} (h : c ∈ m.put a v) :
    c = (a, v) ∨ c ∈ m := by
  induction m with
  | nil => simpa [Memory.put] using h
  | cons x m ih =>
    obtain ⟨k, b⟩ := x
    simp only [Memory.put] at h
    split at h
    · simpa using h
    · split at h
      · rcases List.mem_cons.1 h with h | h
        · exact .inl h
        · exact .inr (List.mem_cons_of_mem _ h)
      · rcases List.mem_cons.1 h with h | h
        · exact .inr (h ▸ List.mem_cons_self)
        · rcases ih h with h | h
          · exact .inl h
          · exact .inr (List.mem_cons_of_mem _ h)

theorem Memory.put_pairwise {m : Memory} (a : Nat) (v : Byte) (h : m.Pairwise (fun x y => x.1 < y.1)) :
    (m.put a v).Pairwise (fun x y => x.1 < y.1) := by
  induction m with
  | nil => simp [Memory.put]
  | cons x m ih =>
    obtain ⟨k, b⟩ := x
    obtain ⟨hk, hm⟩ := List.pairwise_cons.1 h
    simp only [Memory.put]
    split
    · rename_i hak
      refine List.pairwise_cons.2 ⟨fun y hy => ?_, h⟩
      rcases List.mem_cons.1 hy with hy | hy
      · subst hy
        exact hak
      · exact Nat.lt_trans hak (hk y hy)
    · split
      · rename_i hak
        subst hak
        exact List.pairwise_cons.2 ⟨hk, hm⟩
      · rename_i h1 h2
        refine List.pairwise_cons.2 ⟨fun y hy => ?_, ih hm⟩
        rcases Memory.mem_put hy with hy | hy
        · subst hy
          show k < a
          omega
        · exact hk y hy

/-- A write keeps the canonical form. -/
theorem Memory.wf_write {m : Memory} (h : m.wf) (a : Nat) (v : Byte) : (m.write a v).wf := by
  unfold Memory.write
  split
  · exact ⟨h.1.filter _, fun c hc => h.2 c (List.mem_of_mem_filter hc)⟩
  · rename_i hv
    refine ⟨Memory.put_pairwise a v h.1, fun c hc => ?_⟩
    rcases Memory.mem_put hc with hc | hc
    · subst hc
      exact hv
    · exact h.2 c hc

/-- A wide write keeps the canonical form. -/
theorem Memory.wf_writeLE : ∀ (n : Nat) {m : Memory} (_ : m.wf) (a v : Nat), (m.writeLE a n v).wf
  | 0, _, h, _, _ => h
  | n + 1, _, h, a, v => Memory.wf_writeLE n (Memory.wf_write h a _) (a + 1) (v / 256)

/-- A write inside the extent lists nothing outside it. -/
theorem Memory.within_write {m : Memory} {k : Nat} (h : m.within k) {a : Nat} (ha : a < k) (v : Byte) :
    (m.write a v).within k := by
  unfold Memory.write
  split
  · exact fun c hc => h c (List.mem_of_mem_filter hc)
  · intro c hc
    rcases Memory.mem_put hc with hc | hc
    · subst hc
      exact ha
    · exact h c hc

/-- A wide write inside the extent lists nothing outside it. -/
theorem Memory.within_writeLE {k : Nat} : ∀ (n : Nat) {m : Memory} (_ : m.within k) (a v : Nat) (_ : a + n ≤ k),
    (m.writeLE a n v).within k
  | 0, _, h, _, _, _ => h
  | n + 1, _, h, a, v, ha =>
    Memory.within_writeLE n (Memory.within_write h (by omega) _) (a + 1) (v / 256) (by omega)

end Sys2Proof.Machine
end

