-- ==== Sys2Proof/Laws/State.lean ====
section
/-! SUPPORT. Laws/State.lean: one lemma per field and update of the state. -/

namespace Sys2Proof.Machine

variable {w : Nat}

/-! ### Registers (10_state.md R22) -/

@[simp] theorem Arch.x_zero (c : Arch w) : c.x 0#5 = 0#w := rfl

@[simp] theorem Arch.setX_zero (c : Arch w) (v : BitVec w) : c.setX 0#5 v = c := rfl

theorem Reg.toNat_pos {r : Reg} (h : r ≠ 0) : 0 < r.toNat := by
  rcases Nat.eq_zero_or_pos r.toNat with h0 | h0
  · exact absurd (BitVec.eq_of_toNat_eq (by simpa using h0)) h
  · exact h0

/-- Reading register `q` after writing `r`: 0 for register 0, the value for `r`, else as before. -/
theorem Arch.x_setX (c : Arch w) (r q : Reg) (v : BitVec w) :
    (c.setX r v).x q = if q = 0 then 0 else if q = r then v else c.x q := by
  by_cases hq : q = 0
  · subst hq
    rfl
  · unfold Arch.setX
    rw [if_neg hq]
    by_cases hr : r = 0
    · subst hr
      rw [if_pos rfl, if_neg hq]
    · have hqp := Reg.toNat_pos hq
      have hrp := Reg.toNat_pos hr
      simp only [Arch.x, if_neg hr, if_neg hq]
      rw [Vector.getElem_set]
      by_cases hqr : q = r
      · subst hqr
        simp
      · have hne : ¬ r.toNat - 1 = q.toNat - 1 := fun e => hqr (BitVec.eq_of_toNat_eq (by omega))
        simp [hne, hqr]

@[simp] theorem Arch.setX_pc (c : Arch w) (r : Reg) (v : BitVec w) : (c.setX r v).pc = c.pc := by
  unfold Arch.setX; split <;> rfl
@[simp] theorem Arch.setX_cycles (c : Arch w) (r : Reg) (v : BitVec w) : (c.setX r v).cycles = c.cycles := by
  unfold Arch.setX; split <;> rfl
@[simp] theorem Arch.setX_budget (c : Arch w) (r : Reg) (v : BitVec w) : (c.setX r v).budget = c.budget := by
  unfold Arch.setX; split <;> rfl
@[simp] theorem Arch.setX_mem (c : Arch w) (r : Reg) (v : BitVec w) : (c.setX r v).mem = c.mem := by
  unfold Arch.setX; split <;> rfl
@[simp] theorem Arch.setX_signal (c : Arch w) (r : Reg) (v : BitVec w) : (c.setX r v).signal = c.signal := by
  unfold Arch.setX; split <;> rfl
@[simp] theorem Arch.setX_storeEvent (c : Arch w) (r : Reg) (v : BitVec w) :
    (c.setX r v).storeEvent = c.storeEvent := by
  unfold Arch.setX; split <;> rfl

/-! ### Commit (40_dispatch.md R120) -/

@[simp] theorem Arch.commit_pc (c : Arch w) (e : Effects w) : (c.commit e).pc = e.nextPc.getD (c.pc + 4) := rfl
@[simp] theorem Arch.commit_mem (c : Arch w) (e : Effects w) : (c.commit e).mem = c.mem.commit e.mem := rfl
@[simp] theorem Arch.commit_signal (c : Arch w) (e : Effects w) : (c.commit e).signal = e.signal := rfl
@[simp] theorem Arch.commit_storeEvent (c : Arch w) (e : Effects w) :
    (c.commit e).storeEvent = e.mem.map fun a => ⟨a.addr, a.size⟩ := rfl
@[simp] theorem Arch.commit_cycles (c : Arch w) (e : Effects w) : (c.commit e).cycles = c.cycles := by
  obtain ⟨_ | ⟨r, v⟩, _, _, _⟩ := e
  · rfl
  · simp [Arch.commit, Arch.commitReg]
@[simp] theorem Arch.commit_budget (c : Arch w) (e : Effects w) : (c.commit e).budget = c.budget := by
  obtain ⟨_ | ⟨r, v⟩, _, _, _⟩ := e
  · rfl
  · simp [Arch.commit, Arch.commitReg]

theorem Arch.commit_x (c : Arch w) (e : Effects w) (q : Reg) : (c.commit e).x q = (c.commitReg e.reg).x q := rfl

@[simp] theorem Arch.commitReg_none (c : Arch w) : c.commitReg none = c := rfl
@[simp] theorem Arch.commitReg_some (c : Arch w) (r : Reg) (v : BitVec w) :
    c.commitReg (some (r, v)) = c.setX r v := rfl

@[simp] theorem Memory.commit_none (m : Memory) : m.commit none = m := rfl
@[simp] theorem Memory.commit_some (m : Memory) (a : MemWrite) :
    m.commit (some a) = m.writeLE a.addr a.size a.value := rfl

@[simp] theorem State.commit_cfg (s : State) (e : Effects s.W) : (s.commit e).cfg = s.cfg := rfl
@[simp] theorem State.commit_arch (s : State) (e : Effects s.W) : (s.commit e).arch = s.arch.commit e := rfl

/-! ### Charge (40_dispatch.md R127) -/

@[simp] theorem State.charge_cfg (s : State) (i : Instr) : (s.charge i).cfg = s.cfg := rfl
@[simp] theorem State.charge_pc (s : State) (i : Instr) : (s.charge i).arch.pc = s.arch.pc := rfl
@[simp] theorem State.charge_x (s : State) (i : Instr) (q : Reg) : (s.charge i).arch.x q = s.arch.x q := rfl
@[simp] theorem State.charge_mem (s : State) (i : Instr) : (s.charge i).arch.mem = s.arch.mem := rfl
@[simp] theorem State.charge_budget (s : State) (i : Instr) : (s.charge i).arch.budget = s.arch.budget := rfl
@[simp] theorem State.charge_signal (s : State) (i : Instr) : (s.charge i).arch.signal = s.arch.signal := rfl
@[simp] theorem State.charge_storeEvent (s : State) (i : Instr) :
    (s.charge i).arch.storeEvent = s.arch.storeEvent := rfl
@[simp] theorem State.charge_cycles (s : State) (i : Instr) :
    (s.charge i).arch.cycles = BitVec.ofNat 64 (s.arch.cycles.toNat + s.cfg.cost i) := rfl

/-! ### The host's actions (10_state.md R37) -/

@[simp] theorem State.hostSetPc_cfg (s : State) (v : BitVec s.W) : (s.hostSetPc v).cfg = s.cfg := rfl
@[simp] theorem State.hostSetPc_pc (s : State) (v : BitVec s.W) : (s.hostSetPc v).arch.pc = v := rfl
@[simp] theorem State.hostSetPc_mem (s : State) (v : BitVec s.W) : (s.hostSetPc v).arch.mem = s.arch.mem := rfl
@[simp] theorem State.hostSetBudget_cfg (s : State) (v : BitVec 64) : (s.hostSetBudget v).cfg = s.cfg := rfl
@[simp] theorem State.hostSetBudget_budget (s : State) (v : BitVec 64) :
    (s.hostSetBudget v).arch.budget = v := rfl
@[simp] theorem State.hostSetBudget_cycles (s : State) (v : BitVec 64) :
    (s.hostSetBudget v).arch.cycles = s.arch.cycles := rfl

/-! ### Reset (70_reset_and_hazards.md R340) -/

@[simp] theorem State.resetWith_cfg (c : Config) (p : ResetParams c.width.bits) :
    (State.resetWith c p).cfg = c := rfl
@[simp] theorem State.resetWith_pc (c : Config) (p : ResetParams c.width.bits) :
    (State.resetWith c p).arch.pc = p.resetPc := rfl
@[simp] theorem State.resetWith_mem (c : Config) (p : ResetParams c.width.bits) :
    (State.resetWith c p).arch.mem = p.memInit := rfl
@[simp] theorem State.resetWith_cycles (c : Config) (p : ResetParams c.width.bits) :
    (State.resetWith c p).arch.cycles = 0 := rfl
@[simp] theorem State.resetWith_budget (c : Config) (p : ResetParams c.width.bits) :
    (State.resetWith c p).arch.budget = p.budget := rfl

theorem State.resetWith_x (c : Config) (p : ResetParams c.width.bits) (q : Reg) :
    (State.resetWith c p).arch.x q = 0 := by
  simp [Arch.x, State.resetWith]

end Sys2Proof.Machine
end

