-- ==== Sys2Proof/Laws/Ops.lean ====
section
/-! SUPPORT. Laws/Ops.lean: what each shared operation can answer, and what executing any instruction can answer. -/

namespace Sys2Proof.Machine

/-! ### Memory access -/

theorem State.memRead_inBounds {s : State} {a : BitVec s.W} {n : Nat} (k : AccessKind)
    (h : a.toNat + n ≤ s.cfg.memSize) : s.memRead a n k = .ok (s.arch.mem.readLE a.toNat n) := by
  simp [State.memRead, inBounds, h]

theorem State.memRead_outOfBounds {s : State} {a : BitVec s.W} {n : Nat} (k : AccessKind)
    (h : s.cfg.memSize < a.toNat + n) : s.memRead a n k = .error (.memoryFault a.toNat n k) := by
  simp [State.memRead, inBounds, Nat.not_le.2 h]

theorem State.memWrite_inBounds {s : State} {a : BitVec s.W} {n v : Nat}
    (h : a.toNat + n ≤ s.cfg.memSize) : s.memWrite a n v = .ok ⟨a.toNat, n, v⟩ := by
  simp [State.memWrite, inBounds, h]

theorem State.memWrite_outOfBounds {s : State} {a : BitVec s.W} {n v : Nat}
    (h : s.cfg.memSize < a.toNat + n) : s.memWrite a n v = .error (.memoryFault a.toNat n .store) := by
  simp [State.memWrite, inBounds, Nat.not_le.2 h]

/-! ### The shapes of meanings -/

theorem State.load_inBounds {s : State} {rd rs1 : Reg} {imm : BitVec 12} {n : Nat} {ext : Nat → BitVec s.W}
    (h : (s.effAddr rs1 imm).toNat + n ≤ s.cfg.memSize) :
    s.load rd rs1 imm n ext = s.writes rd (ext (s.arch.mem.readLE (s.effAddr rs1 imm).toNat n)) := by
  simp [State.load, State.memRead_inBounds _ h]

theorem State.load_outOfBounds {s : State} {rd rs1 : Reg} {imm : BitVec 12} {n : Nat} {ext : Nat → BitVec s.W}
    (h : s.cfg.memSize < (s.effAddr rs1 imm).toNat + n) :
    s.load rd rs1 imm n ext = .fault (.memoryFault (s.effAddr rs1 imm).toNat n .load) := by
  simp [State.load, State.memRead_outOfBounds _ h, raise]

theorem State.store_inBounds {s : State} {rs1 rs2 : Reg} {imm : BitVec 12} {n : Nat}
    (h : (s.effAddr rs1 imm).toNat + n ≤ s.cfg.memSize) :
    s.store rs1 rs2 imm n = s.finish { mem := some ⟨(s.effAddr rs1 imm).toNat, n, (s.x rs2).toNat⟩ } := by
  simp [State.store, State.memWrite_inBounds h]

theorem State.store_outOfBounds {s : State} {rs1 rs2 : Reg} {imm : BitVec 12} {n : Nat}
    (h : s.cfg.memSize < (s.effAddr rs1 imm).toNat + n) :
    s.store rs1 rs2 imm n = .fault (.memoryFault (s.effAddr rs1 imm).toNat n .store) := by
  simp [State.store, State.memWrite_outOfBounds h, raise]

theorem State.whenLegal_of_fits {s : State} {i : Instr} (r : Result) (h : i.fitsWidth s.cfg.width = true) :
    s.whenLegal i r = r := by
  simp [State.whenLegal, h]

/-! ### What executing an instruction can answer -/

/-- The effects of instruction `i` at `s`, as far as every instruction's are the same: a register write goes to `rd`,
a memory write is a store's and in bounds, an explicit pc is a control transfer's, the signal is the instruction's. -/
structure EffectShape (i : Instr) (s : State) (e : Effects s.W) : Prop where
  reg : ∀ r v, e.reg = some (r, v) → r = i.dest
  mem : ∀ a, e.mem = some a → a.addr + a.size ≤ s.cfg.memSize ∧ i.storeSize = some a.size
  memNone : e.mem = none → i.storeSize = none
  pc : e.nextPc ≠ none → i.transfersControl = true
  signal : e.signal = signalOf i

/-- What executing `i` at `s` can answer: it completes, or its word is illegal at the width, or its one memory access
is out of bounds. -/
inductive ExecShape (i : Instr) (s : State) : Result → Prop where
  | completes (e : Effects s.W) (h : EffectShape i s e) : ExecShape i s (.next (s.commit e))
  | illegal (h : i.fitsWidth s.cfg.width = false) : ExecShape i s (.fault (.decodeError (encode i)))
  | memory (a n : Nat) (k : AccessKind) (h : s.cfg.memSize < a + n)
      (hk : k = .load ∧ i.loadSize = some n ∨ k = .store ∧ i.storeSize = some n) :
      ExecShape i s (.fault (.memoryFault a n k))

variable {i : Instr} {s : State}

theorem ExecShape.writes {rd : Reg} (v : BitVec s.W) (hd : rd = i.dest) (hm : i.storeSize = none)
    (hs : signalOf i = none) : ExecShape i s (s.writes rd v) :=
  .completes _ ⟨fun r u h => by cases h; exact hd, fun a h => (nomatch h), fun _ => hm, fun h => absurd rfl h, hs.symm⟩

theorem ExecShape.whenLegal {r : Result} (h : ExecShape i s r) : ExecShape i s (s.whenLegal i r) := by
  unfold State.whenLegal
  split
  · exact h
  · rename_i hf
    exact .illegal (by simpa using hf)

theorem ExecShape.load {rd rs1 : Reg} {imm : BitVec 12} {n : Nat} {ext : Nat → BitVec s.W} (hd : rd = i.dest)
    (hl : i.loadSize = some n) (hm : i.storeSize = none) (hs : signalOf i = none) :
    ExecShape i s (s.load rd rs1 imm n ext) := by
  rcases Nat.lt_or_ge s.cfg.memSize ((s.effAddr rs1 imm).toNat + n) with h | h
  · rw [State.load_outOfBounds h]
    exact .memory _ _ _ h (.inl ⟨rfl, hl⟩)
  · rw [State.load_inBounds h]
    exact .writes _ hd hm hs

theorem ExecShape.store {rs1 rs2 : Reg} {imm : BitVec 12} {n : Nat} (hm : i.storeSize = some n)
    (hs : signalOf i = none) : ExecShape i s (s.store rs1 rs2 imm n) := by
  rcases Nat.lt_or_ge s.cfg.memSize ((s.effAddr rs1 imm).toNat + n) with h | h
  · rw [State.store_outOfBounds h]
    exact .memory _ _ _ h (.inr ⟨rfl, hm⟩)
  · rw [State.store_inBounds h]
    exact .completes _ ⟨fun _ _ h => (nomatch h), fun a ha => by cases ha; exact ⟨h, hm⟩, fun h => (nomatch h),
      fun h => absurd rfl h, hs.symm⟩

theorem ExecShape.branch (c : Bool) (off : BitVec 13) (ht : i.transfersControl = true) (hm : i.storeSize = none)
    (hs : signalOf i = none) : ExecShape i s (s.branch c off) :=
  .completes _ ⟨fun _ _ h => (nomatch h), fun _ h => (nomatch h), fun _ => hm, fun _ => ht, hs.symm⟩

theorem ExecShape.jump {rd : Reg} (t : BitVec s.W) (hd : rd = i.dest) (ht : i.transfersControl = true)
    (hm : i.storeSize = none) (hs : signalOf i = none) : ExecShape i s (s.jump rd t) :=
  .completes _ ⟨fun r u h => by cases h; exact hd, fun _ h => (nomatch h), fun _ => hm, fun _ => ht, hs.symm⟩

/-- What executing any instruction at any state can answer. -/
theorem exec_shape (i : Instr) (s : State) : ExecShape i s (exec i s) := by
  cases i
  case lb | lh | lw | lbu | lhu => exact .load rfl rfl rfl rfl
  case lwu | ld => exact .whenLegal (.load rfl rfl rfl rfl)
  case sb | sh | sw => exact .store rfl rfl
  case sd => exact .whenLegal (.store rfl rfl)
  case beq | bne | blt | bge | bltu | bgeu => exact .branch _ _ rfl rfl rfl
  case jal | jalr => exact .jump _ rfl rfl rfl rfl
  case slli | srli | srai | addiw | slliw | srliw | sraiw | addw | subw | sllw | srlw | sraw =>
    exact .whenLegal (.writes _ rfl rfl rfl)
  case fence | ecall | ebreak =>
    exact .completes _ ⟨fun _ _ h => (nomatch h), fun _ h => (nomatch h), fun _ => rfl, fun h => absurd rfl h, rfl⟩
  all_goals exact .writes _ rfl rfl rfl

/-! ### The step -/

/-- The three stages before the execution, said once: fetch, decode, budget (40_dispatch.md R120). -/
theorem step_cases (s : State) :
    (∃ f, s.fetch = .error f ∧ step s = .fault f) ∨
    (∃ w f, s.fetch = .ok w ∧ s.decoded w = .error f ∧ step s = .fault f) ∨
    (∃ w i, s.fetch = .ok w ∧ s.decoded w = .ok i ∧ s.overBudget i = true ∧ step s = .fault .cycleBudgetExceeded) ∨
    (∃ w i, s.fetch = .ok w ∧ s.decoded w = .ok i ∧ s.overBudget i = false ∧
      step s = Result.charged i (exec i s)) := by
  rcases hf : s.fetch with f | w
  · exact .inl ⟨f, rfl, by simp [step, hf, raise]⟩
  · rcases hd : s.decoded w with f | i
    · exact .inr (.inl ⟨w, f, rfl, hd, by simp [step, hf, hd, raise]⟩)
    · rcases hb : s.overBudget i with _ | _
      · exact .inr (.inr (.inr ⟨w, i, rfl, hd, hb, by simp [step, hf, hd, hb]⟩))
      · exact .inr (.inr (.inl ⟨w, i, rfl, hd, hb, by simp [step, hf, hd, hb, raise]⟩))

/-- A step that answers a next state ran a decoded instruction that fits the budget, and charged it. -/
theorem step_next {s t : State} (h : step s = .next t) :
    ∃ w i e, s.fetch = .ok w ∧ s.decoded w = .ok i ∧ s.overBudget i = false ∧
      EffectShape i s e ∧ t = (s.commit e).charge i := by
  rcases step_cases s with ⟨f, _, h'⟩ | ⟨w, f, _, _, h'⟩ | ⟨w, i, _, _, _, h'⟩ | ⟨w, i, hf, hd, hb, h'⟩
  · exact nomatch h'.symm.trans h
  · exact nomatch h'.symm.trans h
  · exact nomatch h'.symm.trans h
  · rw [h'] at h
    rcases hx : exec i s, exec_shape i s with ⟨r, ⟨e, he⟩ | _ | _⟩
    · rw [hx] at h
      simp only [Result.charged] at h
      exact ⟨w, i, e, hf, hd, hb, he, by cases h; rfl⟩
    · rw [hx] at h
      exact nomatch h
    · rw [hx] at h
      exact nomatch h

end Sys2Proof.Machine
end

