-- ==== Sys2Proof/Laws/PerInstr.lean ====
section
/-! SUPPORT. Laws/PerInstr.lean: for every instruction, its word selects one row of the opcode map and that row's fields
give the instruction back (30_encoding.md R83 to R103, R105). -/

namespace Sys2Proof.Laws

/-- The instruction's word selects a row of the map that applies at the width, and the row builds the instruction from
it. -/
def EncodeSelectsRow.Statement (i : Instr) : Prop :=
  ∀ wd : Width, i.fitsWidth wd = true → i.evenOffset = true →
    ∃ r ∈ opcodeMap, r.ext = i.ext ∧ wd ∈ r.widths ∧ encode i &&& r.mask = r.pat ∧ r.build (encode i) = i

end Sys2Proof.Laws

namespace Sys2Proof.Laws.Format

/-! ### One lemma per format -/

theorem mem_both (wd : Width) : wd ∈ bothWidths := by cases wd <;> decide

theorem mem_w64 {wd : Width} (h : (wd == Width.w64) = true) : wd ∈ [Width.w64] := by simpa using h

theorem field_masked {pat mask : InsnWord} {k m : Nat} (hp : pat &&& mask = pat) (hk : field mask k m = 0#m) :
    field pat k m = 0#m := by
  rw [← hp]
  simp only [field] at hk ⊢
  rw [BitVec.extractLsb'_and, hk, BitVec.and_zero]

variable {wd : Width} {ws : List Width} {pat : InsnWord}

/-- What the per-format lemmas conclude. -/
abbrev Selects (wd : Width) (i : Instr) : Prop :=
  ∃ r ∈ opcodeMap, r.ext = i.ext ∧ wd ∈ r.widths ∧ encode i &&& r.mask = r.pat ∧ r.build (encode i) = i

theorem selects_R {e : Extension} {c : Reg → Reg → Reg → Instr} {rd rs1 rs2 : Reg}
    (hm : rowR e ws pat c ∈ opcodeMap) (hw : wd ∈ ws) (hp : pat &&& 0xfe00707f#32 = pat)
    (he : encode (c rd rs1 rs2) = encR pat rd rs1 rs2) (hx : (c rd rs1 rs2).ext = e) :
    Selects wd (c rd rs1 rs2) := by
  refine ⟨_, hm, hx.symm, hw, ?_, ?_⟩
  · show encode _ &&& 0xfe00707f#32 = pat
    rw [he, encR, or_and_mask (place_and_mask _ (by decide)), or_and_mask (place_and_mask _ (by decide)),
      or_and_mask (place_and_mask _ (by decide)), hp]
  · show c (rdF _) (rs1F _) (rs2F _) = _
    simp [he, encR, rdF, rs1F, rs2F, field_or, field_place_same, field_place_other,
      field_masked hp (show field _ 7 5 = 0#5 by decide), field_masked hp (show field _ 15 5 = 0#5 by decide),
      field_masked hp (show field _ 20 5 = 0#5 by decide)]

theorem selects_I {c : Reg → Reg → BitVec 12 → Instr} {rd rs1 : Reg} {imm : BitVec 12}
    (hm : rowI ws pat c ∈ opcodeMap) (hw : wd ∈ ws) (hp : pat &&& 0x0000707f#32 = pat)
    (he : encode (c rd rs1 imm) = encI pat rd rs1 imm) (hx : (c rd rs1 imm).ext = .I) :
    Selects wd (c rd rs1 imm) := by
  refine ⟨_, hm, hx.symm, hw, ?_, ?_⟩
  · show encode _ &&& 0x0000707f#32 = pat
    rw [he, encI, or_and_mask (place_and_mask _ (by decide)), or_and_mask (place_and_mask _ (by decide)),
      or_and_mask (place_and_mask _ (by decide)), hp]
  · show c (rdF _) (rs1F _) (bitsI _) = _
    simp [he, encI, rdF, rs1F, bitsI, field_or, field_place_same, field_place_other,
      field_masked hp (show field _ 7 5 = 0#5 by decide), field_masked hp (show field _ 15 5 = 0#5 by decide),
      field_masked hp (show field _ 20 12 = 0#12 by decide)]

/-- The two parts of an S-immediate, put together again. -/
theorem split_S (imm : BitVec 12) : imm.extractLsb' 5 7 ++ imm.extractLsb' 0 5 = imm := by
  apply BitVec.eq_of_getLsbD_eq
  intro i hi
  simp only [BitVec.getLsbD_append, BitVec.getLsbD_extractLsb']
  by_cases h : i < 5
  · simp [h]
  · have h1 : i - 5 < 7 := by omega
    have h2 : 5 + (i - 5) = i := by omega
    simp [h, h1, h2]

theorem selects_S {c : Reg → Reg → BitVec 12 → Instr} {rs1 rs2 : Reg} {imm : BitVec 12}
    (hm : rowS ws pat c ∈ opcodeMap) (hw : wd ∈ ws) (hp : pat &&& 0x0000707f#32 = pat)
    (he : encode (c rs1 rs2 imm) = encS pat rs1 rs2 imm) (hx : (c rs1 rs2 imm).ext = .I) :
    Selects wd (c rs1 rs2 imm) := by
  refine ⟨_, hm, hx.symm, hw, ?_, ?_⟩
  · show encode _ &&& 0x0000707f#32 = pat
    rw [he, encS, or_and_mask (place_and_mask _ (by decide)), or_and_mask (place_and_mask _ (by decide)),
      or_and_mask (place_and_mask _ (by decide)), or_and_mask (place_and_mask _ (by decide)), hp]
  · show c (rs1F _) (rs2F _) (bitsS _) = _
    simp [he, encS, rs1F, rs2F, bitsS, field_or, field_place_same, field_place_other, split_S,
      field_masked hp (show field _ 15 5 = 0#5 by decide), field_masked hp (show field _ 20 5 = 0#5 by decide),
      field_masked hp (show field _ 7 5 = 0#5 by decide), field_masked hp (show field _ 25 7 = 0#7 by decide)]

/-- The parts of an even branch offset, put together again. -/
theorem split_B (imm : BitVec 13) (h0 : (!imm.getLsbD 0) = true) :
    imm.extractLsb' 12 1 ++ imm.extractLsb' 11 1 ++ imm.extractLsb' 5 6 ++ imm.extractLsb' 1 4 ++ 0#1 = imm := by
  apply BitVec.eq_of_getLsbD_eq
  intro i hi
  simp only [BitVec.getLsbD_append, BitVec.getLsbD_extractLsb', BitVec.getLsbD_zero]
  interval_cases i <;> simp_all

theorem selects_B {c : Reg → Reg → BitVec 13 → Instr} {rs1 rs2 : Reg} {imm : BitVec 13}
    (hm : rowB ws pat c ∈ opcodeMap) (hw : wd ∈ ws) (hp : pat &&& 0x0000707f#32 = pat)
    (he : encode (c rs1 rs2 imm) = encB pat rs1 rs2 imm) (hx : (c rs1 rs2 imm).ext = .I)
    (ho : (!imm.getLsbD 0) = true) : Selects wd (c rs1 rs2 imm) := by
  refine ⟨_, hm, hx.symm, hw, ?_, ?_⟩
  · show encode _ &&& 0x0000707f#32 = pat
    rw [he, encB, or_and_mask (place_and_mask _ (by decide)), or_and_mask (place_and_mask _ (by decide)),
      or_and_mask (place_and_mask _ (by decide)), or_and_mask (place_and_mask _ (by decide)),
      or_and_mask (place_and_mask _ (by decide)), or_and_mask (place_and_mask _ (by decide)), hp]
  · show c (rs1F _) (rs2F _) (bitsB _) = _
    simp [he, encB, rs1F, rs2F, bitsB, field_or, field_place_same, field_place_other, split_B imm ho,
      field_masked hp (show field _ 15 5 = 0#5 by decide), field_masked hp (show field _ 20 5 = 0#5 by decide),
      field_masked hp (show field _ 31 1 = 0#1 by decide), field_masked hp (show field _ 7 1 = 0#1 by decide),
      field_masked hp (show field _ 25 6 = 0#6 by decide), field_masked hp (show field _ 8 4 = 0#4 by decide)]

theorem selects_U {c : Reg → BitVec 20 → Instr} {rd : Reg} {imm : BitVec 20}
    (hm : rowU ws pat c ∈ opcodeMap) (hw : wd ∈ ws) (hp : pat &&& 0x0000007f#32 = pat)
    (he : encode (c rd imm) = encU pat rd imm) (hx : (c rd imm).ext = .I) : Selects wd (c rd imm) := by
  refine ⟨_, hm, hx.symm, hw, ?_, ?_⟩
  · show encode _ &&& 0x0000007f#32 = pat
    rw [he, encU, or_and_mask (place_and_mask _ (by decide)), or_and_mask (place_and_mask _ (by decide)), hp]
  · show c (rdF _) (bitsU _) = _
    simp [he, encU, rdF, bitsU, field_or, field_place_same, field_place_other,
      field_masked hp (show field _ 7 5 = 0#5 by decide), field_masked hp (show field _ 12 20 = 0#20 by decide)]

/-- The parts of an even jump offset, put together again. -/
theorem split_J (imm : BitVec 21) (h0 : (!imm.getLsbD 0) = true) :
    imm.extractLsb' 20 1 ++ imm.extractLsb' 12 8 ++ imm.extractLsb' 11 1 ++ imm.extractLsb' 1 10 ++ 0#1 = imm := by
  apply BitVec.eq_of_getLsbD_eq
  intro i hi
  simp only [BitVec.getLsbD_append, BitVec.getLsbD_extractLsb', BitVec.getLsbD_zero]
  interval_cases i <;> simp_all

theorem selects_J {c : Reg → BitVec 21 → Instr} {rd : Reg} {imm : BitVec 21}
    (hm : rowJ ws pat c ∈ opcodeMap) (hw : wd ∈ ws) (hp : pat &&& 0x0000007f#32 = pat)
    (he : encode (c rd imm) = encJ pat rd imm) (hx : (c rd imm).ext = .I)
    (ho : (!imm.getLsbD 0) = true) : Selects wd (c rd imm) := by
  refine ⟨_, hm, hx.symm, hw, ?_, ?_⟩
  · show encode _ &&& 0x0000007f#32 = pat
    rw [he, encJ, or_and_mask (place_and_mask _ (by decide)), or_and_mask (place_and_mask _ (by decide)),
      or_and_mask (place_and_mask _ (by decide)), or_and_mask (place_and_mask _ (by decide)),
      or_and_mask (place_and_mask _ (by decide)), hp]
  · show c (rdF _) (bitsJ _) = _
    simp [he, encJ, rdF, bitsJ, field_or, field_place_same, field_place_other, split_J imm ho,
      field_masked hp (show field _ 7 5 = 0#5 by decide), field_masked hp (show field _ 31 1 = 0#1 by decide),
      field_masked hp (show field _ 12 8 = 0#8 by decide), field_masked hp (show field _ 20 1 = 0#1 by decide),
      field_masked hp (show field _ 21 10 = 0#10 by decide)]

theorem selects_shiftW {c : Reg → Reg → BitVec 5 → Instr} {rd rs1 : Reg} {amt : BitVec 5}
    (hm : rowShiftW ws pat c ∈ opcodeMap) (hw : wd ∈ ws) (hp : pat &&& 0xfe00707f#32 = pat)
    (he : encode (c rd rs1 amt) = encShift pat rd rs1 amt) (hx : (c rd rs1 amt).ext = .I) :
    Selects wd (c rd rs1 amt) := by
  refine ⟨_, hm, hx.symm, hw, ?_, ?_⟩
  · show encode _ &&& 0xfe00707f#32 = pat
    rw [he, encShift, or_and_mask (place_and_mask _ (by decide)), or_and_mask (place_and_mask _ (by decide)),
      or_and_mask (place_and_mask _ (by decide)), hp]
  · show c (rdF _) (rs1F _) (shamt5 _) = _
    simp [he, encShift, rdF, rs1F, shamt5, field_or, field_place_same, field_place_other,
      field_masked hp (show field _ 7 5 = 0#5 by decide), field_masked hp (show field _ 15 5 = 0#5 by decide),
      field_masked hp (show field _ 20 5 = 0#5 by decide)]

theorem selects_shift64 {c : Reg → Reg → BitVec 6 → Instr} {rd rs1 : Reg} {amt : BitVec 6}
    (hm : rowShift64 pat c ∈ opcodeMap) (hp : pat &&& 0xfc00707f#32 = pat)
    (he : encode (c rd rs1 amt) = encShift pat rd rs1 amt) (hx : (c rd rs1 amt).ext = .I) :
    Selects .w64 (c rd rs1 amt) := by
  refine ⟨_, hm, hx.symm, List.mem_singleton.2 rfl, ?_, ?_⟩
  · show encode _ &&& 0xfc00707f#32 = pat
    rw [he, encShift, or_and_mask (place_and_mask _ (by decide)), or_and_mask (place_and_mask _ (by decide)),
      or_and_mask (place_and_mask _ (by decide)), hp]
  · show c (rdF _) (rs1F _) (shamt6 _) = _
    simp [he, encShift, rdF, rs1F, shamt6, field_or, field_place_same, field_place_other,
      field_masked hp (show field _ 7 5 = 0#5 by decide), field_masked hp (show field _ 15 5 = 0#5 by decide),
      field_masked hp (show field _ 20 6 = 0#6 by decide)]

/-- A six-bit shift amount below 32 is placed as its low five bits. -/
theorem place_amt {amt : BitVec 6} (h : amt.toNat < 32) : place 20 amt = place 20 (zext amt : BitVec 5) := by
  apply BitVec.eq_of_toNat_eq
  simp only [place, zext, BitVec.toNat_shiftLeft, BitVec.toNat_setWidth]
  congr 2
  omega

theorem selects_shift32 {c : Reg → Reg → BitVec 6 → Instr} {rd rs1 : Reg} {amt : BitVec 6}
    (hm : rowShift32 pat c ∈ opcodeMap) (hf : decide (amt.toNat < 32) = true) (hp : pat &&& 0xfe00707f#32 = pat)
    (he : encode (c rd rs1 amt) = encShift pat rd rs1 amt) (hx : (c rd rs1 amt).ext = .I) :
    Selects .w32 (c rd rs1 amt) := by
  have hl : amt.toNat < 32 := of_decide_eq_true hf
  have hz : (zext (zext amt : BitVec 5) : BitVec 6) = amt := by
    apply BitVec.eq_of_toNat_eq
    simp only [zext, BitVec.toNat_setWidth]
    omega
  refine ⟨_, hm, hx.symm, List.mem_singleton.2 rfl, ?_, ?_⟩
  · show encode _ &&& 0xfe00707f#32 = pat
    rw [he, encShift, place_amt hl, or_and_mask (place_and_mask _ (by decide)),
      or_and_mask (place_and_mask _ (by decide)), or_and_mask (place_and_mask _ (by decide)), hp]
  · show c (rdF _) (rs1F _) (zext (shamt5 _)) = _
    simp [he, encShift, place_amt hl, rdF, rs1F, shamt5, field_or, field_place_same, field_place_other, hz,
      field_masked hp (show field _ 7 5 = 0#5 by decide), field_masked hp (show field _ 15 5 = 0#5 by decide),
      field_masked hp (show field _ 20 5 = 0#5 by decide)]

end Sys2Proof.Laws.Format

section
open Sys2Proof Sys2Proof.Laws.Format

/-! ### One lemma per instruction -/

theorem Sys2Proof.Laws.EncodeSelectsRow.mul (rd rs1 rs2 : Reg) : Sys2Proof.Laws.EncodeSelectsRow.Statement (.mul rd rs1 rs2) := fun wd _ _ =>
  selects_R (e := .M) (c := .mul) (by simp [opcodeMap, rowsM]) (mem_both wd) (by decide) rfl rfl

theorem Sys2Proof.Laws.EncodeSelectsRow.mulh (rd rs1 rs2 : Reg) : Sys2Proof.Laws.EncodeSelectsRow.Statement (.mulh rd rs1 rs2) := fun wd _ _ =>
  selects_R (e := .M) (c := .mulh) (by simp [opcodeMap, rowsM]) (mem_both wd) (by decide) rfl rfl

theorem Sys2Proof.Laws.EncodeSelectsRow.mulhsu (rd rs1 rs2 : Reg) : Sys2Proof.Laws.EncodeSelectsRow.Statement (.mulhsu rd rs1 rs2) := fun wd _ _ =>
  selects_R (e := .M) (c := .mulhsu) (by simp [opcodeMap, rowsM]) (mem_both wd) (by decide) rfl rfl

theorem Sys2Proof.Laws.EncodeSelectsRow.mulhu (rd rs1 rs2 : Reg) : Sys2Proof.Laws.EncodeSelectsRow.Statement (.mulhu rd rs1 rs2) := fun wd _ _ =>
  selects_R (e := .M) (c := .mulhu) (by simp [opcodeMap, rowsM]) (mem_both wd) (by decide) rfl rfl

theorem Sys2Proof.Laws.EncodeSelectsRow.div (rd rs1 rs2 : Reg) : Sys2Proof.Laws.EncodeSelectsRow.Statement (.div rd rs1 rs2) := fun wd _ _ =>
  selects_R (e := .M) (c := .div) (by simp [opcodeMap, rowsM]) (mem_both wd) (by decide) rfl rfl

theorem Sys2Proof.Laws.EncodeSelectsRow.divu (rd rs1 rs2 : Reg) : Sys2Proof.Laws.EncodeSelectsRow.Statement (.divu rd rs1 rs2) := fun wd _ _ =>
  selects_R (e := .M) (c := .divu) (by simp [opcodeMap, rowsM]) (mem_both wd) (by decide) rfl rfl

theorem Sys2Proof.Laws.EncodeSelectsRow.rem (rd rs1 rs2 : Reg) : Sys2Proof.Laws.EncodeSelectsRow.Statement (.rem rd rs1 rs2) := fun wd _ _ =>
  selects_R (e := .M) (c := .rem) (by simp [opcodeMap, rowsM]) (mem_both wd) (by decide) rfl rfl

theorem Sys2Proof.Laws.EncodeSelectsRow.remu (rd rs1 rs2 : Reg) : Sys2Proof.Laws.EncodeSelectsRow.Statement (.remu rd rs1 rs2) := fun wd _ _ =>
  selects_R (e := .M) (c := .remu) (by simp [opcodeMap, rowsM]) (mem_both wd) (by decide) rfl rfl

theorem Sys2Proof.Laws.EncodeSelectsRow.lui (rd : Reg) (imm20 : BitVec 20) : Sys2Proof.Laws.EncodeSelectsRow.Statement (.lui rd imm20) := fun wd _ _ =>
  selects_U (c := .lui) (by simp [opcodeMap, rowsUpper]) (mem_both wd) (by decide) rfl rfl

theorem Sys2Proof.Laws.EncodeSelectsRow.auipc (rd : Reg) (imm20 : BitVec 20) : Sys2Proof.Laws.EncodeSelectsRow.Statement (.auipc rd imm20) := fun wd _ _ =>
  selects_U (c := .auipc) (by simp [opcodeMap, rowsUpper]) (mem_both wd) (by decide) rfl rfl

theorem Sys2Proof.Laws.EncodeSelectsRow.jal (rd : Reg) (offset : BitVec 21) : Sys2Proof.Laws.EncodeSelectsRow.Statement (.jal rd offset) := fun wd _ ho =>
  selects_J (c := .jal) (by simp [opcodeMap, rowsUpper]) (mem_both wd) (by decide) rfl rfl ho

theorem Sys2Proof.Laws.EncodeSelectsRow.jalr (rd rs1 : Reg) (imm : BitVec 12) : Sys2Proof.Laws.EncodeSelectsRow.Statement (.jalr rd rs1 imm) := fun wd _ _ =>
  selects_I (c := .jalr) (by simp [opcodeMap, rowsUpper]) (mem_both wd) (by decide) rfl rfl

theorem Sys2Proof.Laws.EncodeSelectsRow.beq (rs1 rs2 : Reg) (offset : BitVec 13) : Sys2Proof.Laws.EncodeSelectsRow.Statement (.beq rs1 rs2 offset) := fun wd _ ho =>
  selects_B (c := .beq) (by simp [opcodeMap, rowsBranch]) (mem_both wd) (by decide) rfl rfl ho

theorem Sys2Proof.Laws.EncodeSelectsRow.bne (rs1 rs2 : Reg) (offset : BitVec 13) : Sys2Proof.Laws.EncodeSelectsRow.Statement (.bne rs1 rs2 offset) := fun wd _ ho =>
  selects_B (c := .bne) (by simp [opcodeMap, rowsBranch]) (mem_both wd) (by decide) rfl rfl ho

theorem Sys2Proof.Laws.EncodeSelectsRow.blt (rs1 rs2 : Reg) (offset : BitVec 13) : Sys2Proof.Laws.EncodeSelectsRow.Statement (.blt rs1 rs2 offset) := fun wd _ ho =>
  selects_B (c := .blt) (by simp [opcodeMap, rowsBranch]) (mem_both wd) (by decide) rfl rfl ho

theorem Sys2Proof.Laws.EncodeSelectsRow.bge (rs1 rs2 : Reg) (offset : BitVec 13) : Sys2Proof.Laws.EncodeSelectsRow.Statement (.bge rs1 rs2 offset) := fun wd _ ho =>
  selects_B (c := .bge) (by simp [opcodeMap, rowsBranch]) (mem_both wd) (by decide) rfl rfl ho

theorem Sys2Proof.Laws.EncodeSelectsRow.bltu (rs1 rs2 : Reg) (offset : BitVec 13) : Sys2Proof.Laws.EncodeSelectsRow.Statement (.bltu rs1 rs2 offset) := fun wd _ ho =>
  selects_B (c := .bltu) (by simp [opcodeMap, rowsBranch]) (mem_both wd) (by decide) rfl rfl ho

theorem Sys2Proof.Laws.EncodeSelectsRow.bgeu (rs1 rs2 : Reg) (offset : BitVec 13) : Sys2Proof.Laws.EncodeSelectsRow.Statement (.bgeu rs1 rs2 offset) := fun wd _ ho =>
  selects_B (c := .bgeu) (by simp [opcodeMap, rowsBranch]) (mem_both wd) (by decide) rfl rfl ho

theorem Sys2Proof.Laws.EncodeSelectsRow.lb (rd rs1 : Reg) (imm : BitVec 12) : Sys2Proof.Laws.EncodeSelectsRow.Statement (.lb rd rs1 imm) := fun wd _ _ =>
  selects_I (c := .lb) (by simp [opcodeMap, rowsLoadStore]) (mem_both wd) (by decide) rfl rfl

theorem Sys2Proof.Laws.EncodeSelectsRow.lh (rd rs1 : Reg) (imm : BitVec 12) : Sys2Proof.Laws.EncodeSelectsRow.Statement (.lh rd rs1 imm) := fun wd _ _ =>
  selects_I (c := .lh) (by simp [opcodeMap, rowsLoadStore]) (mem_both wd) (by decide) rfl rfl

theorem Sys2Proof.Laws.EncodeSelectsRow.lw (rd rs1 : Reg) (imm : BitVec 12) : Sys2Proof.Laws.EncodeSelectsRow.Statement (.lw rd rs1 imm) := fun wd _ _ =>
  selects_I (c := .lw) (by simp [opcodeMap, rowsLoadStore]) (mem_both wd) (by decide) rfl rfl

theorem Sys2Proof.Laws.EncodeSelectsRow.lbu (rd rs1 : Reg) (imm : BitVec 12) : Sys2Proof.Laws.EncodeSelectsRow.Statement (.lbu rd rs1 imm) := fun wd _ _ =>
  selects_I (c := .lbu) (by simp [opcodeMap, rowsLoadStore]) (mem_both wd) (by decide) rfl rfl

theorem Sys2Proof.Laws.EncodeSelectsRow.lhu (rd rs1 : Reg) (imm : BitVec 12) : Sys2Proof.Laws.EncodeSelectsRow.Statement (.lhu rd rs1 imm) := fun wd _ _ =>
  selects_I (c := .lhu) (by simp [opcodeMap, rowsLoadStore]) (mem_both wd) (by decide) rfl rfl

theorem Sys2Proof.Laws.EncodeSelectsRow.lwu (rd rs1 : Reg) (imm : BitVec 12) : Sys2Proof.Laws.EncodeSelectsRow.Statement (.lwu rd rs1 imm) := fun wd hf _ =>
  selects_I (c := .lwu) (by simp [opcodeMap, rowsLoadStore]) (mem_w64 hf) (by decide) rfl rfl

theorem Sys2Proof.Laws.EncodeSelectsRow.ld (rd rs1 : Reg) (imm : BitVec 12) : Sys2Proof.Laws.EncodeSelectsRow.Statement (.ld rd rs1 imm) := fun wd hf _ =>
  selects_I (c := .ld) (by simp [opcodeMap, rowsLoadStore]) (mem_w64 hf) (by decide) rfl rfl

theorem Sys2Proof.Laws.EncodeSelectsRow.sb (rs1 rs2 : Reg) (imm : BitVec 12) : Sys2Proof.Laws.EncodeSelectsRow.Statement (.sb rs1 rs2 imm) := fun wd _ _ =>
  selects_S (c := .sb) (by simp [opcodeMap, rowsLoadStore]) (mem_both wd) (by decide) rfl rfl

theorem Sys2Proof.Laws.EncodeSelectsRow.sh (rs1 rs2 : Reg) (imm : BitVec 12) : Sys2Proof.Laws.EncodeSelectsRow.Statement (.sh rs1 rs2 imm) := fun wd _ _ =>
  selects_S (c := .sh) (by simp [opcodeMap, rowsLoadStore]) (mem_both wd) (by decide) rfl rfl

theorem Sys2Proof.Laws.EncodeSelectsRow.sw (rs1 rs2 : Reg) (imm : BitVec 12) : Sys2Proof.Laws.EncodeSelectsRow.Statement (.sw rs1 rs2 imm) := fun wd _ _ =>
  selects_S (c := .sw) (by simp [opcodeMap, rowsLoadStore]) (mem_both wd) (by decide) rfl rfl

theorem Sys2Proof.Laws.EncodeSelectsRow.sd (rs1 rs2 : Reg) (imm : BitVec 12) : Sys2Proof.Laws.EncodeSelectsRow.Statement (.sd rs1 rs2 imm) := fun wd hf _ =>
  selects_S (c := .sd) (by simp [opcodeMap, rowsLoadStore]) (mem_w64 hf) (by decide) rfl rfl

theorem Sys2Proof.Laws.EncodeSelectsRow.addi (rd rs1 : Reg) (imm : BitVec 12) : Sys2Proof.Laws.EncodeSelectsRow.Statement (.addi rd rs1 imm) := fun wd _ _ =>
  selects_I (c := .addi) (by simp [opcodeMap, rowsImm]) (mem_both wd) (by decide) rfl rfl

theorem Sys2Proof.Laws.EncodeSelectsRow.slti (rd rs1 : Reg) (imm : BitVec 12) : Sys2Proof.Laws.EncodeSelectsRow.Statement (.slti rd rs1 imm) := fun wd _ _ =>
  selects_I (c := .slti) (by simp [opcodeMap, rowsImm]) (mem_both wd) (by decide) rfl rfl

theorem Sys2Proof.Laws.EncodeSelectsRow.sltiu (rd rs1 : Reg) (imm : BitVec 12) : Sys2Proof.Laws.EncodeSelectsRow.Statement (.sltiu rd rs1 imm) := fun wd _ _ =>
  selects_I (c := .sltiu) (by simp [opcodeMap, rowsImm]) (mem_both wd) (by decide) rfl rfl

theorem Sys2Proof.Laws.EncodeSelectsRow.xori (rd rs1 : Reg) (imm : BitVec 12) : Sys2Proof.Laws.EncodeSelectsRow.Statement (.xori rd rs1 imm) := fun wd _ _ =>
  selects_I (c := .xori) (by simp [opcodeMap, rowsImm]) (mem_both wd) (by decide) rfl rfl

theorem Sys2Proof.Laws.EncodeSelectsRow.ori (rd rs1 : Reg) (imm : BitVec 12) : Sys2Proof.Laws.EncodeSelectsRow.Statement (.ori rd rs1 imm) := fun wd _ _ =>
  selects_I (c := .ori) (by simp [opcodeMap, rowsImm]) (mem_both wd) (by decide) rfl rfl

theorem Sys2Proof.Laws.EncodeSelectsRow.andi (rd rs1 : Reg) (imm : BitVec 12) : Sys2Proof.Laws.EncodeSelectsRow.Statement (.andi rd rs1 imm) := fun wd _ _ =>
  selects_I (c := .andi) (by simp [opcodeMap, rowsImm]) (mem_both wd) (by decide) rfl rfl

theorem Sys2Proof.Laws.EncodeSelectsRow.slli (rd rs1 : Reg) (shamt : BitVec 6) : Sys2Proof.Laws.EncodeSelectsRow.Statement (.slli rd rs1 shamt) := fun wd hf _ => by
  cases wd
  · exact selects_shift32 (c := .slli) (by simp [opcodeMap, rowsImm]) hf (by decide) rfl rfl
  · exact selects_shift64 (c := .slli) (by simp [opcodeMap, rowsImm]) (by decide) rfl rfl

theorem Sys2Proof.Laws.EncodeSelectsRow.srli (rd rs1 : Reg) (shamt : BitVec 6) : Sys2Proof.Laws.EncodeSelectsRow.Statement (.srli rd rs1 shamt) := fun wd hf _ => by
  cases wd
  · exact selects_shift32 (c := .srli) (by simp [opcodeMap, rowsImm]) hf (by decide) rfl rfl
  · exact selects_shift64 (c := .srli) (by simp [opcodeMap, rowsImm]) (by decide) rfl rfl

theorem Sys2Proof.Laws.EncodeSelectsRow.srai (rd rs1 : Reg) (shamt : BitVec 6) : Sys2Proof.Laws.EncodeSelectsRow.Statement (.srai rd rs1 shamt) := fun wd hf _ => by
  cases wd
  · exact selects_shift32 (c := .srai) (by simp [opcodeMap, rowsImm]) hf (by decide) rfl rfl
  · exact selects_shift64 (c := .srai) (by simp [opcodeMap, rowsImm]) (by decide) rfl rfl

theorem Sys2Proof.Laws.EncodeSelectsRow.add (rd rs1 rs2 : Reg) : Sys2Proof.Laws.EncodeSelectsRow.Statement (.add rd rs1 rs2) := fun wd _ _ =>
  selects_R (e := .I) (c := .add) (by simp [opcodeMap, rowsReg]) (mem_both wd) (by decide) rfl rfl

theorem Sys2Proof.Laws.EncodeSelectsRow.sub (rd rs1 rs2 : Reg) : Sys2Proof.Laws.EncodeSelectsRow.Statement (.sub rd rs1 rs2) := fun wd _ _ =>
  selects_R (e := .I) (c := .sub) (by simp [opcodeMap, rowsReg]) (mem_both wd) (by decide) rfl rfl

theorem Sys2Proof.Laws.EncodeSelectsRow.sll (rd rs1 rs2 : Reg) : Sys2Proof.Laws.EncodeSelectsRow.Statement (.sll rd rs1 rs2) := fun wd _ _ =>
  selects_R (e := .I) (c := .sll) (by simp [opcodeMap, rowsReg]) (mem_both wd) (by decide) rfl rfl

theorem Sys2Proof.Laws.EncodeSelectsRow.slt (rd rs1 rs2 : Reg) : Sys2Proof.Laws.EncodeSelectsRow.Statement (.slt rd rs1 rs2) := fun wd _ _ =>
  selects_R (e := .I) (c := .slt) (by simp [opcodeMap, rowsReg]) (mem_both wd) (by decide) rfl rfl

theorem Sys2Proof.Laws.EncodeSelectsRow.sltu (rd rs1 rs2 : Reg) : Sys2Proof.Laws.EncodeSelectsRow.Statement (.sltu rd rs1 rs2) := fun wd _ _ =>
  selects_R (e := .I) (c := .sltu) (by simp [opcodeMap, rowsReg]) (mem_both wd) (by decide) rfl rfl

theorem Sys2Proof.Laws.EncodeSelectsRow.xor (rd rs1 rs2 : Reg) : Sys2Proof.Laws.EncodeSelectsRow.Statement (.xor rd rs1 rs2) := fun wd _ _ =>
  selects_R (e := .I) (c := .xor) (by simp [opcodeMap, rowsReg]) (mem_both wd) (by decide) rfl rfl

theorem Sys2Proof.Laws.EncodeSelectsRow.srl (rd rs1 rs2 : Reg) : Sys2Proof.Laws.EncodeSelectsRow.Statement (.srl rd rs1 rs2) := fun wd _ _ =>
  selects_R (e := .I) (c := .srl) (by simp [opcodeMap, rowsReg]) (mem_both wd) (by decide) rfl rfl

theorem Sys2Proof.Laws.EncodeSelectsRow.sra (rd rs1 rs2 : Reg) : Sys2Proof.Laws.EncodeSelectsRow.Statement (.sra rd rs1 rs2) := fun wd _ _ =>
  selects_R (e := .I) (c := .sra) (by simp [opcodeMap, rowsReg]) (mem_both wd) (by decide) rfl rfl

theorem Sys2Proof.Laws.EncodeSelectsRow.or (rd rs1 rs2 : Reg) : Sys2Proof.Laws.EncodeSelectsRow.Statement (.or rd rs1 rs2) := fun wd _ _ =>
  selects_R (e := .I) (c := .or) (by simp [opcodeMap, rowsReg]) (mem_both wd) (by decide) rfl rfl

theorem Sys2Proof.Laws.EncodeSelectsRow.and (rd rs1 rs2 : Reg) : Sys2Proof.Laws.EncodeSelectsRow.Statement (.and rd rs1 rs2) := fun wd _ _ =>
  selects_R (e := .I) (c := .and) (by simp [opcodeMap, rowsReg]) (mem_both wd) (by decide) rfl rfl

theorem Sys2Proof.Laws.EncodeSelectsRow.addiw (rd rs1 : Reg) (imm : BitVec 12) : Sys2Proof.Laws.EncodeSelectsRow.Statement (.addiw rd rs1 imm) := fun wd hf _ =>
  selects_I (c := .addiw) (by simp [opcodeMap, rowsWord]) (mem_w64 hf) (by decide) rfl rfl

theorem Sys2Proof.Laws.EncodeSelectsRow.slliw (rd rs1 : Reg) (shamt : BitVec 5) : Sys2Proof.Laws.EncodeSelectsRow.Statement (.slliw rd rs1 shamt) := fun wd hf _ =>
  selects_shiftW (c := .slliw) (by simp [opcodeMap, rowsWord]) (mem_w64 hf) (by decide) rfl rfl

theorem Sys2Proof.Laws.EncodeSelectsRow.srliw (rd rs1 : Reg) (shamt : BitVec 5) : Sys2Proof.Laws.EncodeSelectsRow.Statement (.srliw rd rs1 shamt) := fun wd hf _ =>
  selects_shiftW (c := .srliw) (by simp [opcodeMap, rowsWord]) (mem_w64 hf) (by decide) rfl rfl

theorem Sys2Proof.Laws.EncodeSelectsRow.sraiw (rd rs1 : Reg) (shamt : BitVec 5) : Sys2Proof.Laws.EncodeSelectsRow.Statement (.sraiw rd rs1 shamt) := fun wd hf _ =>
  selects_shiftW (c := .sraiw) (by simp [opcodeMap, rowsWord]) (mem_w64 hf) (by decide) rfl rfl

theorem Sys2Proof.Laws.EncodeSelectsRow.addw (rd rs1 rs2 : Reg) : Sys2Proof.Laws.EncodeSelectsRow.Statement (.addw rd rs1 rs2) := fun wd hf _ =>
  selects_R (e := .I) (c := .addw) (by simp [opcodeMap, rowsWord]) (mem_w64 hf) (by decide) rfl rfl

theorem Sys2Proof.Laws.EncodeSelectsRow.subw (rd rs1 rs2 : Reg) : Sys2Proof.Laws.EncodeSelectsRow.Statement (.subw rd rs1 rs2) := fun wd hf _ =>
  selects_R (e := .I) (c := .subw) (by simp [opcodeMap, rowsWord]) (mem_w64 hf) (by decide) rfl rfl

theorem Sys2Proof.Laws.EncodeSelectsRow.sllw (rd rs1 rs2 : Reg) : Sys2Proof.Laws.EncodeSelectsRow.Statement (.sllw rd rs1 rs2) := fun wd hf _ =>
  selects_R (e := .I) (c := .sllw) (by simp [opcodeMap, rowsWord]) (mem_w64 hf) (by decide) rfl rfl

theorem Sys2Proof.Laws.EncodeSelectsRow.srlw (rd rs1 rs2 : Reg) : Sys2Proof.Laws.EncodeSelectsRow.Statement (.srlw rd rs1 rs2) := fun wd hf _ =>
  selects_R (e := .I) (c := .srlw) (by simp [opcodeMap, rowsWord]) (mem_w64 hf) (by decide) rfl rfl

theorem Sys2Proof.Laws.EncodeSelectsRow.sraw (rd rs1 rs2 : Reg) : Sys2Proof.Laws.EncodeSelectsRow.Statement (.sraw rd rs1 rs2) := fun wd hf _ =>
  selects_R (e := .I) (c := .sraw) (by simp [opcodeMap, rowsWord]) (mem_w64 hf) (by decide) rfl rfl

theorem Sys2Proof.Laws.EncodeSelectsRow.fence : Sys2Proof.Laws.EncodeSelectsRow.Statement .fence := fun wd _ _ =>
  ⟨_, (by simp [opcodeMap, rowsSystem] : (⟨.I, bothWidths, 0x0000707f, 0x0000000f, fun _ => .fence⟩ : Row) ∈ opcodeMap), rfl, mem_both wd, by decide, rfl⟩

theorem Sys2Proof.Laws.EncodeSelectsRow.ecall : Sys2Proof.Laws.EncodeSelectsRow.Statement .ecall := fun wd _ _ =>
  ⟨_, (by simp [opcodeMap, rowsSystem] : (⟨.I, bothWidths, 0xffffffff, 0x00000073, fun _ => .ecall⟩ : Row) ∈ opcodeMap), rfl, mem_both wd, by decide, rfl⟩

theorem Sys2Proof.Laws.EncodeSelectsRow.ebreak : Sys2Proof.Laws.EncodeSelectsRow.Statement .ebreak := fun wd _ _ =>
  ⟨_, (by simp [opcodeMap, rowsSystem] : (⟨.I, bothWidths, 0xffffffff, 0x00100073, fun _ => .ebreak⟩ : Row) ∈ opcodeMap), rfl, mem_both wd, by decide, rfl⟩

end
end

