-- ==== Sys2Proof/Tests/Slice0.lean ====
section
/-! SUPPORT. Tests/Slice0.lean: smoke tests of WellFormed, decoding of every constructor, single steps, and a witness
for the hypotheses of every obligation. Expected results come from the vectors of spec/ files 95 to 99, named at each
test, or by hand from the rule named. -/

namespace Sys2Proof.Tests

open Sys2Proof Sys2Proof.Machine Sys2Proof.Spec

/-! ### Helpers -/

/-- The reference instance of 95_test_vectors.md section 1 at a width: the word at pc 0x100, some registers, some memory. -/
def machine (wd : Width) (w : Nat) (regs : List (Reg × Nat)) (mem : Memory := []) (budget : Nat := 1000000000) : State :=
  let c : Config := { Config.reference with width := wd }
  let s := State.resetWith c ⟨BitVec.ofNat _ 0x100, BitVec.ofNat 64 budget, mem⟩
  regs.foldl (fun s p => s.hostSetX p.1 (BitVec.ofNat _ p.2)) (s.withFetchWord 32 w)

/-- The step completes and the state after it meets the test. -/
def after (s : State) (p : State → Bool) : Bool :=
  match step s with
  | .next t => p t
  | .fault _ => false
  | .refused _ => false

/-- A register's value. -/
def reg (t : State) (r : Reg) : Nat := (t.arch.x r).toNat

/-- The pc after the step, and that a step from 0 charged 1. -/
def pcAfter (t : State) (a : Nat) : Bool := t.arch.pc.toNat == a && t.arch.cycles == 1

/-- `n` bytes of memory from `a` on. -/
def bytes (t : State) (a n : Nat) : List Nat := (List.range n).map fun i => (t.arch.mem.read (a + i)).toNat

/-- The store event of the step. -/
def event (t : State) : Option StoreEvent := t.arch.storeEvent

/-- The sixteen bytes at 0x200 of the load vectors (98_vectors_mem_control.md section 1). -/
def loadMem : Memory :=
  [(0x200, 0x80), (0x201, 0x91), (0x202, 0xa2), (0x203, 0xb3), (0x204, 0xc4), (0x205, 0xd5), (0x206, 0xe6),
   (0x207, 0xf7), (0x208, 0x08), (0x209, 0x19), (0x20a, 0x2a), (0x20b, 0x3b), (0x20c, 0x4c), (0x20d, 0x5d),
   (0x20e, 0x6e), (0x20f, 0x7f)]

/-! ### WellFormed: an ill-formed term for each check -/

/-- The extension is not enabled (30_encoding.md R93). -/
theorem test_wellFormed_extension : Instr.wellFormed .w64 [.M] (.add 3 1 2) = false := by decide
theorem test_wellFormed_extension_enabled : Instr.wellFormed .w64 [.M] (.mul 3 1 2) = true := by decide

/-- An instruction of W = 64 at W = 32 (30_encoding.md R99, R102). -/
theorem test_wellFormed_width : Instr.wellFormed .w32 [.I, .M] (.ld 3 1 8) = false := by decide

/-- A shift amount of 32 at W = 32 (30_encoding.md R109). -/
theorem test_wellFormed_shamt : Instr.wellFormed .w32 [.I, .M] (.slli 3 1 32) = false := by decide
theorem test_wellFormed_shamt_31 : Instr.wellFormed .w32 [.I, .M] (.slli 3 1 31) = true := by decide

/-- An odd branch offset and an odd jump offset (30_encoding.md R86, R88). -/
theorem test_wellFormed_branch_offset : Instr.wellFormed .w64 [.I, .M] (.beq 1 2 3) = false := by decide
theorem test_wellFormed_jump_offset : Instr.wellFormed .w64 [.I, .M] (.jal 1 1) = false := by decide

/-! ### Decoding: each word of 96_vectors_decode.md section 1, written out from the layout of 30_encoding.md R83 -/

theorem test_decode_mul : decode .w32 [.I, .M] 0x022081b3 = some (.mul 3 1 2) ∧
    0x022081b3 = (0b0000001#7 ++ 0b00010#5 ++ 0b00001#5 ++ 0b000#3 ++ 0b00011#5 ++ 0b0110011#7 : InsnWord) := by decide

theorem test_decode_mulh : decode .w64 [.I, .M] 0x03df1fb3 = some (.mulh 31 30 29) ∧
    0x03df1fb3 = (0b0000001#7 ++ 0b11101#5 ++ 0b11110#5 ++ 0b001#3 ++ 0b11111#5 ++ 0b0110011#7 : InsnWord) := by decide

theorem test_decode_mulhsu : decode .w32 [.I, .M] 0x02c5a533 = some (.mulhsu 10 11 12) ∧
    0x02c5a533 = (0b0000001#7 ++ 0b01100#5 ++ 0b01011#5 ++ 0b010#3 ++ 0b01010#5 ++ 0b0110011#7 : InsnWord) := by decide

theorem test_decode_mulhu : decode .w64 [.I, .M] 0x027332b3 = some (.mulhu 5 6 7) ∧
    0x027332b3 = (0b0000001#7 ++ 0b00111#5 ++ 0b00110#5 ++ 0b011#3 ++ 0b00101#5 ++ 0b0110011#7 : InsnWord) := by decide

theorem test_decode_div : decode .w32 [.I, .M] 0x02a4c433 = some (.div 8 9 10) ∧
    0x02a4c433 = (0b0000001#7 ++ 0b01010#5 ++ 0b01001#5 ++ 0b100#3 ++ 0b01000#5 ++ 0b0110011#7 : InsnWord) := by decide

theorem test_decode_divu : decode .w64 [.I, .M] 0x02d757b3 = some (.divu 15 14 13) ∧
    0x02d757b3 = (0b0000001#7 ++ 0b01101#5 ++ 0b01110#5 ++ 0b101#3 ++ 0b01111#5 ++ 0b0110011#7 : InsnWord) := by decide

theorem test_decode_rem : decode .w32 [.I, .M] 0x0210e0b3 = some (.rem 1 1 1) ∧
    0x0210e0b3 = (0b0000001#7 ++ 0b00001#5 ++ 0b00001#5 ++ 0b110#3 ++ 0b00001#5 ++ 0b0110011#7 : InsnWord) := by decide

theorem test_decode_remu : decode .w64 [.I, .M] 0x0220f1b3 = some (.remu 3 1 2) ∧
    0x0220f1b3 = (0b0000001#7 ++ 0b00010#5 ++ 0b00001#5 ++ 0b111#3 ++ 0b00011#5 ++ 0b0110011#7 : InsnWord) := by decide

theorem test_decode_lui : decode .w64 [.I, .M] 0x123452b7 = some (.lui 5 0x12345) ∧
    0x123452b7 = (0b00010010001101000101#20 ++ 0b00101#5 ++ 0b0110111#7 : InsnWord) := by decide

theorem test_decode_auipc : decode .w32 [.I, .M] 0xfffff317 = some (.auipc 6 0xfffff) ∧
    0xfffff317 = (0b11111111111111111111#20 ++ 0b00110#5 ++ 0b0010111#7 : InsnWord) := by decide

theorem test_decode_jal : decode .w64 [.I, .M] 0xffdff06f = some (.jal 0 (-4)) ∧
    0xffdff06f = (0b1#1 ++ 0b1111111110#10 ++ 0b1#1 ++ 0b11111111#8 ++ 0b00000#5 ++ 0b1101111#7 : InsnWord) := by decide

theorem test_decode_jalr : decode .w32 [.I, .M] 0x800280e7 = some (.jalr 1 5 (-2048)) ∧
    0x800280e7 = (0b100000000000#12 ++ 0b00101#5 ++ 0b000#3 ++ 0b00001#5 ++ 0b1100111#7 : InsnWord) := by decide

theorem test_decode_beq : decode .w64 [.I, .M] 0x00208863 = some (.beq 1 2 16) ∧
    0x00208863 = (0b0#1 ++ 0b000000#6 ++ 0b00010#5 ++ 0b00001#5 ++ 0b000#3 ++ 0b1000#4 ++ 0b0#1 ++ 0b1100011#7 : InsnWord) := by decide

theorem test_decode_bne : decode .w32 [.I, .M] 0xfe209ce3 = some (.bne 1 2 (-8)) ∧
    0xfe209ce3 = (0b1#1 ++ 0b111111#6 ++ 0b00010#5 ++ 0b00001#5 ++ 0b001#3 ++ 0b1100#4 ++ 0b1#1 ++ 0b1100011#7 : InsnWord) := by decide

theorem test_decode_blt : decode .w64 [.I, .M] 0x7e41cfe3 = some (.blt 3 4 4094) ∧
    0x7e41cfe3 = (0b0#1 ++ 0b111111#6 ++ 0b00100#5 ++ 0b00011#5 ++ 0b100#3 ++ 0b1111#4 ++ 0b1#1 ++ 0b1100011#7 : InsnWord) := by decide

theorem test_decode_bge : decode .w32 [.I, .M] 0x8041d063 = some (.bge 3 4 (-4096)) ∧
    0x8041d063 = (0b1#1 ++ 0b000000#6 ++ 0b00100#5 ++ 0b00011#5 ++ 0b101#3 ++ 0b0000#4 ++ 0b0#1 ++ 0b1100011#7 : InsnWord) := by decide

theorem test_decode_bltu : decode .w64 [.I, .M] 0x0062e163 = some (.bltu 5 6 2) ∧
    0x0062e163 = (0b0#1 ++ 0b000000#6 ++ 0b00110#5 ++ 0b00101#5 ++ 0b110#3 ++ 0b0001#4 ++ 0b0#1 ++ 0b1100011#7 : InsnWord) := by decide

theorem test_decode_bgeu : decode .w32 [.I, .M] 0xfe0fffe3 = some (.bgeu 31 0 (-2)) ∧
    0xfe0fffe3 = (0b1#1 ++ 0b111111#6 ++ 0b00000#5 ++ 0b11111#5 ++ 0b111#3 ++ 0b1111#4 ++ 0b1#1 ++ 0b1100011#7 : InsnWord) := by decide

theorem test_decode_lb : decode .w64 [.I, .M] 0x00808183 = some (.lb 3 1 8) ∧
    0x00808183 = (0b000000001000#12 ++ 0b00001#5 ++ 0b000#3 ++ 0b00011#5 ++ 0b0000011#7 : InsnWord) := by decide

theorem test_decode_lh : decode .w32 [.I, .M] 0xfff09183 = some (.lh 3 1 (-1)) ∧
    0xfff09183 = (0b111111111111#12 ++ 0b00001#5 ++ 0b001#3 ++ 0b00011#5 ++ 0b0000011#7 : InsnWord) := by decide

theorem test_decode_lw : decode .w64 [.I, .M] 0xffc0a183 = some (.lw 3 1 (-4)) ∧
    0xffc0a183 = (0b111111111100#12 ++ 0b00001#5 ++ 0b010#3 ++ 0b00011#5 ++ 0b0000011#7 : InsnWord) := by decide

theorem test_decode_lbu : decode .w32 [.I, .M] 0x0080c183 = some (.lbu 3 1 8) ∧
    0x0080c183 = (0b000000001000#12 ++ 0b00001#5 ++ 0b100#3 ++ 0b00011#5 ++ 0b0000011#7 : InsnWord) := by decide

theorem test_decode_lhu : decode .w64 [.I, .M] 0x8000d183 = some (.lhu 3 1 (-2048)) ∧
    0x8000d183 = (0b100000000000#12 ++ 0b00001#5 ++ 0b101#3 ++ 0b00011#5 ++ 0b0000011#7 : InsnWord) := by decide

theorem test_decode_lwu : decode .w64 [.I, .M] 0x0080e183 = some (.lwu 3 1 8) ∧
    0x0080e183 = (0b000000001000#12 ++ 0b00001#5 ++ 0b110#3 ++ 0b00011#5 ++ 0b0000011#7 : InsnWord) := by decide

theorem test_decode_ld : decode .w64 [.I, .M] 0x7ff0b183 = some (.ld 3 1 2047) ∧
    0x7ff0b183 = (0b011111111111#12 ++ 0b00001#5 ++ 0b011#3 ++ 0b00011#5 ++ 0b0000011#7 : InsnWord) := by decide

theorem test_decode_sb : decode .w32 [.I, .M] 0x00208423 = some (.sb 1 2 8) ∧
    0x00208423 = (0b0000000#7 ++ 0b00010#5 ++ 0b00001#5 ++ 0b000#3 ++ 0b01000#5 ++ 0b0100011#7 : InsnWord) := by decide

theorem test_decode_sh : decode .w64 [.I, .M] 0xfe209fa3 = some (.sh 1 2 (-1)) ∧
    0xfe209fa3 = (0b1111111#7 ++ 0b00010#5 ++ 0b00001#5 ++ 0b001#3 ++ 0b11111#5 ++ 0b0100011#7 : InsnWord) := by decide

theorem test_decode_sw : decode .w32 [.I, .M] 0xfe20ae23 = some (.sw 1 2 (-4)) ∧
    0xfe20ae23 = (0b1111111#7 ++ 0b00010#5 ++ 0b00001#5 ++ 0b010#3 ++ 0b11100#5 ++ 0b0100011#7 : InsnWord) := by decide

theorem test_decode_sd : decode .w64 [.I, .M] 0x7e20bfa3 = some (.sd 1 2 2047) ∧
    0x7e20bfa3 = (0b0111111#7 ++ 0b00010#5 ++ 0b00001#5 ++ 0b011#3 ++ 0b11111#5 ++ 0b0100011#7 : InsnWord) := by decide

theorem test_decode_addi : decode .w32 [.I, .M] 0xfff00093 = some (.addi 1 0 (-1)) ∧
    0xfff00093 = (0b111111111111#12 ++ 0b00000#5 ++ 0b000#3 ++ 0b00001#5 ++ 0b0010011#7 : InsnWord) := by decide

theorem test_decode_slti : decode .w64 [.I, .M] 0xfff0a193 = some (.slti 3 1 (-1)) ∧
    0xfff0a193 = (0b111111111111#12 ++ 0b00001#5 ++ 0b010#3 ++ 0b00011#5 ++ 0b0010011#7 : InsnWord) := by decide

theorem test_decode_sltiu : decode .w32 [.I, .M] 0xfff0b193 = some (.sltiu 3 1 (-1)) ∧
    0xfff0b193 = (0b111111111111#12 ++ 0b00001#5 ++ 0b011#3 ++ 0b00011#5 ++ 0b0010011#7 : InsnWord) := by decide

theorem test_decode_xori : decode .w64 [.I, .M] 0xfff0c193 = some (.xori 3 1 (-1)) ∧
    0xfff0c193 = (0b111111111111#12 ++ 0b00001#5 ++ 0b100#3 ++ 0b00011#5 ++ 0b0010011#7 : InsnWord) := by decide

theorem test_decode_ori : decode .w32 [.I, .M] 0x0f00e193 = some (.ori 3 1 0xf0) ∧
    0x0f00e193 = (0b000011110000#12 ++ 0b00001#5 ++ 0b110#3 ++ 0b00011#5 ++ 0b0010011#7 : InsnWord) := by decide

theorem test_decode_andi : decode .w64 [.I, .M] 0xff00f193 = some (.andi 3 1 (-16)) ∧
    0xff00f193 = (0b111111110000#12 ++ 0b00001#5 ++ 0b111#3 ++ 0b00011#5 ++ 0b0010011#7 : InsnWord) := by decide

theorem test_decode_slli : decode .w64 [.I, .M] 0x03f09193 = some (.slli 3 1 63) ∧
    0x03f09193 = (0b000000111111#12 ++ 0b00001#5 ++ 0b001#3 ++ 0b00011#5 ++ 0b0010011#7 : InsnWord) := by decide

theorem test_decode_srli : decode .w32 [.I, .M] 0x0040d193 = some (.srli 3 1 4) ∧
    0x0040d193 = (0b0000000#7 ++ 0b00100#5 ++ 0b00001#5 ++ 0b101#3 ++ 0b00011#5 ++ 0b0010011#7 : InsnWord) := by decide

theorem test_decode_srai : decode .w64 [.I, .M] 0x43f0d193 = some (.srai 3 1 63) ∧
    0x43f0d193 = (0b010000111111#12 ++ 0b00001#5 ++ 0b101#3 ++ 0b00011#5 ++ 0b0010011#7 : InsnWord) := by decide

theorem test_decode_add : decode .w32 [.I, .M] 0x002081b3 = some (.add 3 1 2) ∧
    0x002081b3 = (0b0000000#7 ++ 0b00010#5 ++ 0b00001#5 ++ 0b000#3 ++ 0b00011#5 ++ 0b0110011#7 : InsnWord) := by decide

theorem test_decode_sub : decode .w64 [.I, .M] 0x402081b3 = some (.sub 3 1 2) ∧
    0x402081b3 = (0b0100000#7 ++ 0b00010#5 ++ 0b00001#5 ++ 0b000#3 ++ 0b00011#5 ++ 0b0110011#7 : InsnWord) := by decide

theorem test_decode_sll : decode .w32 [.I, .M] 0x002091b3 = some (.sll 3 1 2) ∧
    0x002091b3 = (0b0000000#7 ++ 0b00010#5 ++ 0b00001#5 ++ 0b001#3 ++ 0b00011#5 ++ 0b0110011#7 : InsnWord) := by decide

theorem test_decode_slt : decode .w64 [.I, .M] 0x0020a1b3 = some (.slt 3 1 2) ∧
    0x0020a1b3 = (0b0000000#7 ++ 0b00010#5 ++ 0b00001#5 ++ 0b010#3 ++ 0b00011#5 ++ 0b0110011#7 : InsnWord) := by decide

theorem test_decode_sltu : decode .w32 [.I, .M] 0x0020b1b3 = some (.sltu 3 1 2) ∧
    0x0020b1b3 = (0b0000000#7 ++ 0b00010#5 ++ 0b00001#5 ++ 0b011#3 ++ 0b00011#5 ++ 0b0110011#7 : InsnWord) := by decide

theorem test_decode_xor : decode .w64 [.I, .M] 0x0020c1b3 = some (.xor 3 1 2) ∧
    0x0020c1b3 = (0b0000000#7 ++ 0b00010#5 ++ 0b00001#5 ++ 0b100#3 ++ 0b00011#5 ++ 0b0110011#7 : InsnWord) := by decide

theorem test_decode_srl : decode .w32 [.I, .M] 0x0020d1b3 = some (.srl 3 1 2) ∧
    0x0020d1b3 = (0b0000000#7 ++ 0b00010#5 ++ 0b00001#5 ++ 0b101#3 ++ 0b00011#5 ++ 0b0110011#7 : InsnWord) := by decide

theorem test_decode_sra : decode .w64 [.I, .M] 0x4020d1b3 = some (.sra 3 1 2) ∧
    0x4020d1b3 = (0b0100000#7 ++ 0b00010#5 ++ 0b00001#5 ++ 0b101#3 ++ 0b00011#5 ++ 0b0110011#7 : InsnWord) := by decide

theorem test_decode_or : decode .w32 [.I, .M] 0x0020e1b3 = some (.or 3 1 2) ∧
    0x0020e1b3 = (0b0000000#7 ++ 0b00010#5 ++ 0b00001#5 ++ 0b110#3 ++ 0b00011#5 ++ 0b0110011#7 : InsnWord) := by decide

theorem test_decode_and : decode .w64 [.I, .M] 0x0020f1b3 = some (.and 3 1 2) ∧
    0x0020f1b3 = (0b0000000#7 ++ 0b00010#5 ++ 0b00001#5 ++ 0b111#3 ++ 0b00011#5 ++ 0b0110011#7 : InsnWord) := by decide

theorem test_decode_addiw : decode .w64 [.I, .M] 0x0010819b = some (.addiw 3 1 1) ∧
    0x0010819b = (0b000000000001#12 ++ 0b00001#5 ++ 0b000#3 ++ 0b00011#5 ++ 0b0011011#7 : InsnWord) := by decide

theorem test_decode_slliw : decode .w64 [.I, .M] 0x0040919b = some (.slliw 3 1 4) ∧
    0x0040919b = (0b0000000#7 ++ 0b00100#5 ++ 0b00001#5 ++ 0b001#3 ++ 0b00011#5 ++ 0b0011011#7 : InsnWord) := by decide

theorem test_decode_srliw : decode .w64 [.I, .M] 0x01f0d19b = some (.srliw 3 1 31) ∧
    0x01f0d19b = (0b0000000#7 ++ 0b11111#5 ++ 0b00001#5 ++ 0b101#3 ++ 0b00011#5 ++ 0b0011011#7 : InsnWord) := by decide

theorem test_decode_sraiw : decode .w64 [.I, .M] 0x4040d19b = some (.sraiw 3 1 4) ∧
    0x4040d19b = (0b0100000#7 ++ 0b00100#5 ++ 0b00001#5 ++ 0b101#3 ++ 0b00011#5 ++ 0b0011011#7 : InsnWord) := by decide

theorem test_decode_addw : decode .w64 [.I, .M] 0x002081bb = some (.addw 3 1 2) ∧
    0x002081bb = (0b0000000#7 ++ 0b00010#5 ++ 0b00001#5 ++ 0b000#3 ++ 0b00011#5 ++ 0b0111011#7 : InsnWord) := by decide

theorem test_decode_subw : decode .w64 [.I, .M] 0x402081bb = some (.subw 3 1 2) ∧
    0x402081bb = (0b0100000#7 ++ 0b00010#5 ++ 0b00001#5 ++ 0b000#3 ++ 0b00011#5 ++ 0b0111011#7 : InsnWord) := by decide

theorem test_decode_sllw : decode .w64 [.I, .M] 0x002091bb = some (.sllw 3 1 2) ∧
    0x002091bb = (0b0000000#7 ++ 0b00010#5 ++ 0b00001#5 ++ 0b001#3 ++ 0b00011#5 ++ 0b0111011#7 : InsnWord) := by decide

theorem test_decode_srlw : decode .w64 [.I, .M] 0x0020d1bb = some (.srlw 3 1 2) ∧
    0x0020d1bb = (0b0000000#7 ++ 0b00010#5 ++ 0b00001#5 ++ 0b101#3 ++ 0b00011#5 ++ 0b0111011#7 : InsnWord) := by decide

theorem test_decode_sraw : decode .w64 [.I, .M] 0x4020d1bb = some (.sraw 3 1 2) ∧
    0x4020d1bb = (0b0100000#7 ++ 0b00010#5 ++ 0b00001#5 ++ 0b101#3 ++ 0b00011#5 ++ 0b0111011#7 : InsnWord) := by decide

theorem test_decode_fence : decode .w32 [.I, .M] 0x0ff0000f = some .fence ∧
    0x0ff0000f = (0b000011111111#12 ++ 0b00000#5 ++ 0b000#3 ++ 0b00000#5 ++ 0b0001111#7 : InsnWord) := by decide

theorem test_decode_ecall : decode .w64 [.I, .M] 0x00000073 = some .ecall ∧
    0x00000073 = (0b000000000000#12 ++ 0b00000#5 ++ 0b000#3 ++ 0b00000#5 ++ 0b1110011#7 : InsnWord) := by decide

theorem test_decode_ebreak : decode .w32 [.I, .M] 0x00100073 = some .ebreak ∧
    0x00100073 = (0b000000000001#12 ++ 0b00000#5 ++ 0b000#3 ++ 0b00000#5 ++ 0b1110011#7 : InsnWord) := by decide

/-- 96_vectors_decode.md section 2: words that are illegal at both widths, first half. -/
theorem test_illegal_words_1 :
    [0x00000000, 0xffffffff, 0x00000001, 0x00008082, 0x0000100f, 0x0000200f, 0x30200073, 0x10200073,
      0x10500073, 0x00200073, 0x12000073, 0xc00022f3, 0x30529073, 0x000000f3, 0x00008073, 0x00300073,
      0x40009193, 0x8000d193, 0x0400d193, 0x0200919b].all
      (fun w => (decode .w32 [.I, .M] w).isNone && (decode .w64 [.I, .M] w).isNone) = true := by decide

/-- 96_vectors_decode.md section 2: words that are illegal at both widths, second half. -/
theorem test_illegal_words_2 :
    [0x4000919b, 0x0000a19b, 0x022081bb, 0x0220c1bb, 0x0220f1bb, 0x0020a1bb, 0x042081b3, 0x402091b3,
      0x0620f1b3, 0x202081b3, 0x0020a863, 0x0020b863, 0x00009067, 0x0080f183, 0x0020c423, 0x0020a1af,
      0x1000a1af, 0x0000a187, 0x002081d3, 0x0000000b, 0x02000057].all
      (fun w => (decode .w32 [.I, .M] w).isNone && (decode .w64 [.I, .M] w).isNone) = true := by decide

/-- 96_vectors_decode.md section 2: words that are illegal at W = 32 only. -/
theorem test_illegal_at_32 :
    [0x02009193, 0x03f09193, 0x0200d193, 0x4200d193, 0x0080b183, 0x0080e183, 0x0020b423, 0x0010819b,
      0x002081bb].all
      (fun w => (decode .w32 [.I, .M] w).isNone && (decode .w64 [.I, .M] w).isSome) = true := by decide

/-! ### Execution, one step from pc 0x100 -/

/-- 97_vectors_arith.md M64-MUL-6. -/
theorem test_mul_wraps : after (machine .w64 0x022081b3 [(1, 0xffffffffffffffff), (2, 0x2)]) (fun t => reg t 3 == 0xfffffffffffffffe && reg t 1 == 0xffffffffffffffff && pcAfter t 0x104) = true := by decide

/-- 97_vectors_arith.md M32-MULH-7. -/
theorem test_mulh_mixed_signs : after (machine .w32 0x022091b3 [(1, 0x7fffffff), (2, 0x80000000)]) (fun t => reg t 3 == 0xc0000000) = true := by decide

/-- 97_vectors_arith.md M64-MULHSU-2. -/
theorem test_mulhsu_signed_by_unsigned : after (machine .w64 0x0220a1b3 [(1, 0x8000000000000000), (2, 0xffffffffffffffff)]) (fun t => reg t 3 == 0x8000000000000000) = true := by decide

/-- 97_vectors_arith.md M32-MULHSU-7. -/
theorem test_mulhsu_operand_order : after (machine .w32 0x0220a1b3 [(1, 0x2), (2, 0x80000000)]) (fun t => reg t 3 == 0x1) = true := by decide

/-- 97_vectors_arith.md M32-MULHU-1. -/
theorem test_mulhu_all_ones : after (machine .w32 0x0220b1b3 [(1, 0xffffffff), (2, 0xffffffff)]) (fun t => reg t 3 == 0xfffffffe) = true := by decide

/-- 97_vectors_arith.md M64-DIV-2. -/
theorem test_div_rounds_to_zero : after (machine .w64 0x0220c1b3 [(1, 0xfffffffffffffff9), (2, 0x2)]) (fun t => reg t 3 == 0xfffffffffffffffd) = true := by decide

/-- 97_vectors_arith.md M32-DIV-7. -/
theorem test_div_overflow : after (machine .w32 0x0220c1b3 [(1, 0x80000000), (2, 0xffffffff)]) (fun t => reg t 3 == 0x80000000) = true := by decide

/-- 97_vectors_arith.md M64-DIVU-3. -/
theorem test_divu_by_zero : after (machine .w64 0x0220d1b3 [(1, 0x7), (2, 0x0)]) (fun t => reg t 3 == 0xffffffffffffffff) = true := by decide

/-- 97_vectors_arith.md M32-DIVU-4. -/
theorem test_divu_min_by_max : after (machine .w32 0x0220d1b3 [(1, 0x80000000), (2, 0xffffffff)]) (fun t => reg t 3 == 0x0) = true := by decide

/-- 97_vectors_arith.md M32-REM-2. -/
theorem test_rem_sign_of_dividend : after (machine .w32 0x0220e1b3 [(1, 0xfffffff9), (2, 0x2)]) (fun t => reg t 3 == 0xffffffff) = true := by decide

/-- 97_vectors_arith.md M64-REM-7. -/
theorem test_rem_overflow : after (machine .w64 0x0220e1b3 [(1, 0x8000000000000000), (2, 0xffffffffffffffff)]) (fun t => reg t 3 == 0x0) = true := by decide

/-- 99_programs.md P1, 95_test_vectors.md E10. -/
theorem test_remu_by_zero : after (machine .w64 0x0220f1b3 [(1, 0x7), (2, 0x0)]) (fun t => reg t 3 == 0x7 && pcAfter t 0x104) = true := by decide

/-- 97_vectors_arith.md MA-6. -/
theorem test_remu_source_is_destination : after (machine .w32 0x0220f133 [(1, 0x7), (2, 0x0)]) (fun t => reg t 2 == 7) = true := by decide

/-- 97_vectors_arith.md U-4. -/
theorem test_lui_sign_extends : after (machine .w64 0x800002b7 []) (fun t => reg t 5 == 0xffffffff80000000) = true := by decide

/-- 97_vectors_arith.md U-7. -/
theorem test_auipc_adds_pc : after (machine .w64 0xfffff297 []) (fun t => reg t 5 == 0xfffffffffffff100) = true := by decide

/-- 97_vectors_arith.md A-4. -/
theorem test_addi_wraps : after (machine .w32 0x7ff08193 [(1, 0xffffffff)]) (fun t => reg t 3 == 0x7fe) = true := by decide

/-- 97_vectors_arith.md A-7. -/
theorem test_slti_signed : after (machine .w64 0x0000a193 [(1, 0x8000000000000000)]) (fun t => reg t 3 == 0x1) = true := by decide

/-- 97_vectors_arith.md A-9. -/
theorem test_sltiu_sign_extended_unsigned : after (machine .w64 0xfff0b193 [(1, 0x5)]) (fun t => reg t 3 == 0x1) = true := by decide

/-- 97_vectors_arith.md A-14. -/
theorem test_xori_sign_extends : after (machine .w64 0xfff0c193 [(1, 0xff00)]) (fun t => reg t 3 == 0xffffffffffff00ff) = true := by decide

/-- 97_vectors_arith.md A-17. -/
theorem test_ori_sign_extends : after (machine .w32 0xf000e193 [(1, 0x1)]) (fun t => reg t 3 == 0xffffff01) = true := by decide

/-- 97_vectors_arith.md A-19. -/
theorem test_andi_sign_extends : after (machine .w64 0xff00f193 [(1, 0xffffffffffffffff)]) (fun t => reg t 3 == 0xfffffffffffffff0) = true := by decide

/-- 97_vectors_arith.md A-24. -/
theorem test_slli_by_63 : after (machine .w64 0x03f09193 [(1, 0x1)]) (fun t => reg t 3 == 0x8000000000000000) = true := by decide

/-- 97_vectors_arith.md A-26. -/
theorem test_srli_zero_fills : after (machine .w32 0x01f0d193 [(1, 0x80000000)]) (fun t => reg t 3 == 0x1) = true := by decide

/-- 97_vectors_arith.md A-30. -/
theorem test_srai_sign_fills : after (machine .w64 0x43f0d193 [(1, 0x8000000000000000)]) (fun t => reg t 3 == 0xffffffffffffffff) = true := by decide

/-- 97_vectors_arith.md A-32. -/
theorem test_add_wraps : after (machine .w32 0x002081b3 [(1, 0xffffffff), (2, 0x1)]) (fun t => reg t 3 == 0x0) = true := by decide

/-- 97_vectors_arith.md A-34. -/
theorem test_sub_operand_order : after (machine .w64 0x402081b3 [(1, 0x0), (2, 0x1)]) (fun t => reg t 3 == 0xffffffffffffffff) = true := by decide

/-- 97_vectors_arith.md A-37, W = 32. -/
theorem test_sll_five_bits : after (machine .w32 0x002091b3 [(1, 0x1), (2, 0x21)]) (fun t => reg t 3 == 0x2) = true := by decide

/-- 97_vectors_arith.md A-37, W = 64. -/
theorem test_sll_six_bits : after (machine .w64 0x002091b3 [(1, 0x1), (2, 0x21)]) (fun t => reg t 3 == 0x200000000) = true := by decide

/-- 97_vectors_arith.md A-40. -/
theorem test_slt_signed : after (machine .w32 0x0020a1b3 [(1, 0xffffffff), (2, 0x1)]) (fun t => reg t 3 == 0x1) = true := by decide

/-- 97_vectors_arith.md A-44. -/
theorem test_sltu_unsigned : after (machine .w64 0x0020b1b3 [(1, 0xffffffffffffffff), (2, 0x1)]) (fun t => reg t 3 == 0x0) = true := by decide

/-- 97_vectors_arith.md A-48. -/
theorem test_xor_bits : after (machine .w32 0x0020c1b3 [(1, 0xff00), (2, 0xff0)]) (fun t => reg t 3 == 0xf0f0) = true := by decide

/-- 97_vectors_arith.md A-52. -/
theorem test_srl_six_bits : after (machine .w64 0x0020d1b3 [(1, 0x8000000000000000), (2, 0x21)]) (fun t => reg t 3 == 0x40000000) = true := by decide

/-- 97_vectors_arith.md A-54. -/
theorem test_sra_five_bits : after (machine .w32 0x4020d1b3 [(1, 0x80000000), (2, 0x21)]) (fun t => reg t 3 == 0xc0000000) = true := by decide

/-- 97_vectors_arith.md A-50. -/
theorem test_or_bits : after (machine .w64 0x0020e1b3 [(1, 0xff00), (2, 0xff0)]) (fun t => reg t 3 == 0xfff0) = true := by decide

/-- 97_vectors_arith.md A-51. -/
theorem test_and_bits : after (machine .w32 0x0020f1b3 [(1, 0xff00), (2, 0xff0)]) (fun t => reg t 3 == 0xf00) = true := by decide

/-- 97_vectors_arith.md W-1. -/
theorem test_addiw_sign_extends : after (machine .w64 0x0010819b [(1, 0x7fffffff)]) (fun t => reg t 3 == 0xffffffff80000000) = true := by decide

/-- 97_vectors_arith.md W-6. -/
theorem test_slliw_drops_upper : after (machine .w64 0x01f0919b [(1, 0xffffffff00000001)]) (fun t => reg t 3 == 0xffffffff80000000) = true := by decide

/-- 97_vectors_arith.md W-10. -/
theorem test_srliw_low_word : after (machine .w64 0x01f0d19b [(1, 0xabcdef0180000000)]) (fun t => reg t 3 == 0x1) = true := by decide

/-- 97_vectors_arith.md W-13. -/
theorem test_sraiw_low_word : after (machine .w64 0x4040d19b [(1, 0xffffffff7fffffff)]) (fun t => reg t 3 == 0x7ffffff) = true := by decide

/-- 97_vectors_arith.md W-14. -/
theorem test_addw_drops_carry : after (machine .w64 0x002081bb [(1, 0xffffffff), (2, 0x1)]) (fun t => reg t 3 == 0x0) = true := by decide

/-- 97_vectors_arith.md W-17. -/
theorem test_subw_sign_extends : after (machine .w64 0x402081bb [(1, 0x0), (2, 0x1)]) (fun t => reg t 3 == 0xffffffffffffffff) = true := by decide

/-- 97_vectors_arith.md W-21. -/
theorem test_sllw_five_bits : after (machine .w64 0x002091bb [(1, 0x1), (2, 0x20)]) (fun t => reg t 3 == 0x1) = true := by decide

/-- 97_vectors_arith.md W-24. -/
theorem test_srlw_sign_extends_result : after (machine .w64 0x0020d1bb [(1, 0xffffffff80000000), (2, 0x20)]) (fun t => reg t 3 == 0xffffffff80000000) = true := by decide

/-- 97_vectors_arith.md W-28. -/
theorem test_sraw_low_word : after (machine .w64 0x4020d1bb [(1, 0xffffffff7fffffff), (2, 0x3f)]) (fun t => reg t 3 == 0x0) = true := by decide

/-- 98_vectors_mem_control.md L-1. -/
theorem test_lb_sign_extends : after (machine .w64 0x00008183 [(1, 0x200)] loadMem) (fun t => reg t 3 == 0xffffffffffffff80) = true := by decide

/-- 98_vectors_mem_control.md L-6. -/
theorem test_lh_misaligned : after (machine .w32 0x00709183 [(1, 0x200)] loadMem) (fun t => reg t 3 == 0x8f7) = true := by decide

/-- 98_vectors_mem_control.md L-9. -/
theorem test_lw_misaligned_sign_extends : after (machine .w64 0x0010a183 [(1, 0x200)] loadMem) (fun t => reg t 3 == 0xffffffffc4b3a291) = true := by decide

/-- 98_vectors_mem_control.md L-25. -/
theorem test_lw_address_wraps : after (machine .w32 0x7ff0a183 [(1, 0xfffff801)] loadMem) (fun t => reg t 3 == 0x0) = true := by decide

/-- 98_vectors_mem_control.md L-2. -/
theorem test_lbu_zero_extends : after (machine .w32 0x0000c183 [(1, 0x200)] loadMem) (fun t => reg t 3 == 0x80) = true := by decide

/-- 98_vectors_mem_control.md L-5. -/
theorem test_lhu_zero_extends : after (machine .w64 0x0000d183 [(1, 0x200)] loadMem) (fun t => reg t 3 == 0x9180) = true := by decide

/-- 98_vectors_mem_control.md L-12. -/
theorem test_lwu_zero_extends : after (machine .w64 0x0000e183 [(1, 0x200)] loadMem) (fun t => reg t 3 == 0xb3a29180) = true := by decide

/-- 98_vectors_mem_control.md L-15. -/
theorem test_ld_misaligned : after (machine .w64 0x0030b183 [(1, 0x200)] loadMem) (fun t => reg t 3 == 0x2a1908f7e6d5c4b3) = true := by decide

/-- 98_vectors_mem_control.md S-1. -/
theorem test_sb_low_byte : after (machine .w32 0x00208023 [(1, 0x300), (2, 0x55667788)]) (fun t => bytes t 0x300 2 == [0x88, 0] && event t == some ⟨0x300, 1⟩) = true := by decide

/-- 98_vectors_mem_control.md S-10. -/
theorem test_sh_misaligned : after (machine .w32 0x002091a3 [(1, 0x300), (2, 0x55667788)]) (fun t => bytes t 0x302 4 == [0, 0x88, 0x77, 0] && event t == some ⟨0x303, 2⟩) = true := by decide

/-- 98_vectors_mem_control.md S-7. -/
theorem test_sw_low_word : after (machine .w64 0x0020a023 [(1, 0x300), (2, 0x1122334455667788)]) (fun t => bytes t 0x300 5 == [0x88, 0x77, 0x66, 0x55, 0] && event t == some ⟨0x300, 4⟩) = true := by decide

/-- 98_vectors_mem_control.md S-19. -/
theorem test_sw_zero_is_a_store : after (machine .w32 0x0000a023 [(1, 0x300)]) (fun t => bytes t 0x300 4 == [0, 0, 0, 0] && event t == some ⟨0x300, 4⟩) = true := by decide

/-- 98_vectors_mem_control.md S-11. -/
theorem test_sd_misaligned : after (machine .w64 0x0020b1a3 [(1, 0x300), (2, 0x1122334455667788)]) (fun t => bytes t 0x303 8 == [0x88, 0x77, 0x66, 0x55, 0x44, 0x33, 0x22, 0x11]) = true := by decide

/-- 98_vectors_mem_control.md C-1. -/
theorem test_beq_taken : after (machine .w32 0x00208863 [(1, 0x5), (2, 0x5)]) (fun t => pcAfter t 0x110) = true := by decide

/-- 98_vectors_mem_control.md C-27. -/
theorem test_beq_wraps_below_zero : after (machine .w32 0xee000fe3 []) (fun t => pcAfter t 0xfffffffe) = true := by decide

/-- 98_vectors_mem_control.md C-4. -/
theorem test_bne_not_taken : after (machine .w32 0x00209863 [(1, 0x5), (2, 0x5)]) (fun t => pcAfter t 0x104) = true := by decide

/-- 98_vectors_mem_control.md C-19. -/
theorem test_blt_signed : after (machine .w64 0x0020c863 [(1, 0xffffffffffffffff), (2, 0x1)]) (fun t => pcAfter t 0x110) = true := by decide

/-- 98_vectors_mem_control.md C-11. -/
theorem test_bge_signed : after (machine .w32 0x0020d863 [(1, 0xffffffff), (2, 0x1)]) (fun t => pcAfter t 0x104) = true := by decide

/-- 98_vectors_mem_control.md C-20. -/
theorem test_bltu_unsigned : after (machine .w64 0x0020e863 [(1, 0xffffffffffffffff), (2, 0x1)]) (fun t => pcAfter t 0x104) = true := by decide

/-- 98_vectors_mem_control.md C-22. -/
theorem test_bgeu_unsigned_backwards : after (machine .w64 0xfe20fce3 [(1, 0x8000000000000000), (2, 0x7fffffffffffffff)]) (fun t => pcAfter t 0xf8) = true := by decide

/-- 98_vectors_mem_control.md J-1. -/
theorem test_jal_links : after (machine .w32 0x001000ef []) (fun t => pcAfter t 0x900 && reg t 1 == 0x104) = true := by decide

/-- 98_vectors_mem_control.md J-7. -/
theorem test_jal_backwards : after (machine .w64 0x800000ef []) (fun t => pcAfter t 0xfffffffffff00100) = true := by decide

/-- 98_vectors_mem_control.md J-12. -/
theorem test_jalr_uses_old_register : after (machine .w32 0x000080e7 [(1, 0x301)]) (fun t => pcAfter t 0x300 && reg t 1 == 0x104) = true := by decide

/-- 98_vectors_mem_control.md J-15. -/
theorem test_jalr_wraps : after (machine .w64 0x001280e7 [(5, 0xffffffffffffffff)]) (fun t => pcAfter t 0 && reg t 1 == 0x104) = true := by decide

/-- 98_vectors_mem_control.md Y-1. -/
theorem test_fence_advances : after (machine .w32 0x0ff0000f [(1, 0x7)]) (fun t => pcAfter t 0x104 && reg t 1 == 7 && t.arch.signal == none) = true := by decide

/-- 98_vectors_mem_control.md Y-3. -/
theorem test_ecall_signals : after (machine .w32 0x00000073 [(1, 0x7)]) (fun t => pcAfter t 0x104 && reg t 1 == 7 && t.arch.signal == some .environmentCall) = true := by decide

/-- 98_vectors_mem_control.md Y-4. -/
theorem test_ebreak_signals : after (machine .w64 0x00100073 [(1, 0x7)]) (fun t => pcAfter t 0x104 && reg t 1 == 7 && t.arch.signal == some .breakpoint) = true := by decide

/-! ### Faults, budget, priority, interface -/

/-- The step ends in this fault. -/
def stops (s : State) (f : Fault) : Bool :=
  match step s with
  | .next _ => false
  | .fault g => g == f
  | .refused _ => false

/-- 98_vectors_mem_control.md L-17 and L-18: the last word of memory is read, one byte further is a MemoryFault. -/
theorem test_lw_at_end : after (machine .w32 0x0000a183 [(1, 0xffc)]) (fun t => reg t 3 == 0) = true := by decide
theorem test_lw_past_end :
    stops (machine .w32 0x0000a183 [(1, 0xffd)]) (.memoryFault 0xffd 4 .load) = true := by decide

/-- 98_vectors_mem_control.md L-28: a load to register 0 still makes the access. -/
theorem test_load_to_x0_faults :
    stops (machine .w64 0x0000a003 [(1, 0xffd)]) (.memoryFault 0xffd 4 .load) = true := by decide

/-- 98_vectors_mem_control.md S-17. -/
theorem test_sd_past_end :
    stops (machine .w64 0x0020b023 [(1, 0xff9), (2, 1)]) (.memoryFault 0xff9 8 .store) = true := by decide

/-- 98_vectors_mem_control.md L-14: an instruction of W = 64 at W = 32. -/
theorem test_ld_at_32 : stops (machine .w32 0x0000b183 [(1, 0x200)]) (.decodeError 0x0000b183) = true := by decide

/-- 98_vectors_mem_control.md B-2, X-8: the budget goes before the execution. -/
theorem test_budget_exhausted :
    stops (machine .w32 0x0000a183 [(1, 0xffd)] [] 0) .cycleBudgetExceeded = true := by decide

/-- 98_vectors_mem_control.md B-11: an illegal word goes before the budget. -/
theorem test_illegal_word_before_budget :
    stops (machine .w32 0x00000000 [] [] 0) (.decodeError 0x00000000) = true := by decide

/-- 98_vectors_mem_control.md X-2, X-6: the fetch past the end of memory, whatever the budget. -/
theorem test_fetch_past_end :
    stops ((machine .w32 0x00000013 [] [] 0).hostSetPc (BitVec.ofNat _ 0xffd)) (.memoryFault 0xffd 4 .fetch) = true := by
  decide

/-- 98_vectors_mem_control.md B-4, B-5, with DIV at cost 4. -/
def costlyDiv (cycles : BitVec 64) : State :=
  let s := machine .w32 0x0220c1b3 [(1, 7), (2, 2)] [] 5
  { cfg := { s.cfg with surcharge := [(.div 3 1 2, 3)] }, arch := { s.arch with cycles := cycles } }
theorem test_budget_fits_exactly :
    after (costlyDiv 1) (fun t => t.arch.cycles == 5 && reg t 3 == 3) = true := by decide
theorem test_budget_does_not_fit : stops (costlyDiv 2) .cycleBudgetExceeded = true := by decide

/-- 95_test_vectors.md E5: a write to register 0 is discarded. -/
theorem test_write_to_x0 :
    after (machine .w32 0x02208033 [(1, 7), (2, 3)]) (fun t => reg t 0 == 0 && reg t 1 == 7) = true := by decide

/-- The host's question about a row: the decoder, and the first step after reset. -/
theorem test_decodeTableWord : decodeTableWord 32 0x0220f1b3 = some (.remu 3 1 2) := by decide
theorem test_withFetchWord :
    after (State.reset.withFetchWord 32 0xfff00093) (fun t => reg t 1 == 0xffffffffffffffff) = true := by decide

/-- Log 16: from reset with nothing placed the first step is the DecodeError of the all-zero word. -/
theorem test_step_of_reset : stops State.reset (.decodeError 0) = true := by decide

/-- Decoding on any bytes rejects by name. -/
theorem test_decodeBytes :
    decodeBytes .w32 [.I, .M] [0xb3, 0x81, 0x20, 0x02] = .ok (.mul 3 1 2) ∧
    decodeBytes .w32 [.I, .M] [0xb3, 0x81] = .error (.notFourBytes 2) ∧
    decodeBytes .w32 [.I, .M] [0, 0, 0, 0] = .error (.notRecognised 0) := by decide

/-- 96_vectors_decode.md: the encoder gives the words of the assembler column. -/
theorem test_encode :
    encode (.mulh 31 30 29) = 0x03df1fb3 ∧ encode (.lw 3 1 (-4)) = 0xffc0a183 ∧ encode (.sd 1 2 2047) = 0x7e20bfa3 ∧
    encode (.bge 3 4 (-4096)) = 0x8041d063 ∧ encode (.lui 5 0x80000) = 0x800002b7 ∧
    encode (.jal 0 (-4)) = 0xffdff06f ∧ encode (.srai 3 1 63) = 0x43f0d193 ∧
    encode (.sraiw 3 1 4) = 0x4040d19b := by decide

/-! ### Witnesses: concrete input that meets the hypotheses of each obligation

`selects` is the hypothesis of an encoding clause; the machines' states are those of the tests above. -/

/-- The hypotheses of `Encoded` for one word, at each width of a list. -/
abbrev selects (e : Extension) (ws : List Width) (mask pat w : InsnWord) : Prop :=
  ws ≠ [] ∧ e ∈ [Extension.I, .M] ∧ w &&& mask = pat

/-- A machine of each width meets the width premise of an instruction of both, of W = 64 that of a word instruction. -/
theorem witness_widths : (machine .w32 0 []).cfg.width ∈ [Width.w32, .w64] ∧
    (machine .w64 0 []).cfg.width ∈ [Width.w32, .w64] ∧ (machine .w64 0 []).cfg.width ∈ [Width.w64] ∧
    (machine .w64 0 []).cfg.width = .w64 := by decide

theorem witness_MultiplyInstructionsGiveTheirPartOfTheProduct :
    selects .M [.w32, .w64] 0xfe00707f 0x02000033 0x022081b3 ∧
    selects .M [.w32, .w64] 0xfe00707f 0x02001033 0x03df1fb3 ∧
    selects .M [.w32, .w64] 0xfe00707f 0x02002033 0x02c5a533 ∧
    selects .M [.w32, .w64] 0xfe00707f 0x02003033 0x027332b3 ∧
    (machine .w32 0 []).cfg.width ∈ [Width.w32, .w64] := by decide

/-- The four rows of the edge-case table are reached: by zero, overflow, MIN by another divisor, ordinary. -/
theorem witness_DivideInstructionsFollowTheEdgeCaseTable :
    selects .M [.w32, .w64] 0xfe00707f 0x02004033 0x02a4c433 ∧
    selects .M [.w32, .w64] 0xfe00707f 0x02005033 0x02d757b3 ∧
    selects .M [.w32, .w64] 0xfe00707f 0x02006033 0x0210e0b3 ∧
    selects .M [.w32, .w64] 0xfe00707f 0x02007033 0x0220f1b3 ∧
    ((machine .w32 0 []).x 2).toNat = 0 ∧
    ((machine .w32 0 [(1, 0x80000000), (2, 0xffffffff)]).x 1).toNat = (BitVec.intMin 32).toNat ∧
    ((machine .w32 0 [(1, 0x80000000), (2, 0xffffffff)]).x 2).toNat = (BitVec.allOnes 32).toNat ∧
    ((machine .w32 0 [(1, 0x80000000), (2, 2)]).x 2).toNat ≠ 0 ∧
    ((machine .w32 0 [(1, 0x80000000), (2, 2)]).x 2).toNat ≠ (BitVec.allOnes 32).toNat := by decide

theorem witness_QuotientTimesDivisorPlusRemainderIsDividend :
    (1#32 ≠ 0) ∧ BitVec.allOnes 32 ≠ 0 ∧ (1#64 ≠ 0) := by decide

/-- A DIV whose cost fits the budget exactly. -/
theorem witness_ExtensionMCompletesInEveryState :
    Fetchable (costlyDiv 1) ∧ DecodesTo (costlyDiv 1) (.div 3 1 2) ∧ Fits (costlyDiv 1) (.div 3 1 2) ∧
    (Instr.div 3 1 2).ext = .M := by
  unfold Fetchable DecodesTo Fits
  decide

theorem witness_UpperImmediateInstructions :
    selects .I [.w32, .w64] 0x0000007f 0x00000037 0x123452b7 ∧
    selects .I [.w32, .w64] 0x0000007f 0x00000017 0xfffff317 := by decide

theorem witness_AddAndLogicImmediates :
    selects .I [.w32, .w64] 0x0000707f 0x00000013 0xfff00093 ∧
    selects .I [.w32, .w64] 0x0000707f 0x00004013 0xfff0c193 ∧
    selects .I [.w32, .w64] 0x0000707f 0x00006013 0x0f00e193 ∧
    selects .I [.w32, .w64] 0x0000707f 0x00007013 0xff00f193 := by decide

theorem witness_ComparisonsWriteOneOrZero :
    selects .I [.w32, .w64] 0x0000707f 0x00002013 0xfff0a193 ∧
    selects .I [.w32, .w64] 0x0000707f 0x00003013 0xfff0b193 ∧
    selects .I [.w32, .w64] 0xfe00707f 0x00002033 0x0020a1b3 ∧
    selects .I [.w32, .w64] 0xfe00707f 0x00003033 0x0020b1b3 := by decide

/-- The words of the largest amount at each width, and the largest amounts themselves. -/
theorem witness_ShiftsByImmediate :
    selects .I [.w32] 0xfe00707f 0x00001013 0x01f09193 ∧ selects .I [.w64] 0xfc00707f 0x00001013 0x03f09193 ∧
    selects .I [.w32] 0xfe00707f 0x00005013 0x01f0d193 ∧ selects .I [.w64] 0xfc00707f 0x00005013 0x03f0d193 ∧
    selects .I [.w32] 0xfe00707f 0x40005013 0x41f0d193 ∧ selects .I [.w64] 0xfc00707f 0x40005013 0x43f0d193 ∧
    (0x02009193#32 &&& 0xfe00707f = 0x00001013 ||| 0x02000000 ∧ 0x0200d193#32 &&& 0xfe00707f = 0x00005013 ||| 0x02000000 ∧
      0x4200d193#32 &&& 0xfe00707f = 0x40005013 ||| 0x02000000) ∧
    (31#6).toNat < (machine .w32 0 []).W ∧ (63#6).toNat < (machine .w64 0 []).W := by decide

theorem witness_AddSubtractAndLogic :
    selects .I [.w32, .w64] 0xfe00707f 0x00000033 0x002081b3 ∧
    selects .I [.w32, .w64] 0xfe00707f 0x40000033 0x402081b3 ∧
    selects .I [.w32, .w64] 0xfe00707f 0x00004033 0x0020c1b3 ∧
    selects .I [.w32, .w64] 0xfe00707f 0x00006033 0x0020e1b3 ∧
    selects .I [.w32, .w64] 0xfe00707f 0x00007033 0x0020f1b3 := by decide

theorem witness_ShiftsByRegister :
    selects .I [.w32, .w64] 0xfe00707f 0x00001033 0x002091b3 ∧
    selects .I [.w32, .w64] 0xfe00707f 0x00005033 0x0020d1b3 ∧
    selects .I [.w32, .w64] 0xfe00707f 0x40005033 0x4020d1b3 := by decide

theorem witness_WordAddAndSubtract :
    selects .I [.w64] 0x0000707f 0x0000001b 0x0010819b ∧ selects .I [.w64] 0xfe00707f 0x0000003b 0x002081bb ∧
    selects .I [.w64] 0xfe00707f 0x4000003b 0x402081bb := by decide

theorem witness_WordShiftsByImmediate :
    selects .I [.w64] 0xfe00707f 0x0000101b 0x0040919b ∧ selects .I [.w64] 0xfe00707f 0x0000501b 0x01f0d19b ∧
    selects .I [.w64] 0xfe00707f 0x4000501b 0x4040d19b := by decide

theorem witness_WordShiftsByRegister :
    selects .I [.w64] 0xfe00707f 0x0000103b 0x002091bb ∧ selects .I [.w64] 0xfe00707f 0x0000503b 0x0020d1bb ∧
    selects .I [.w64] 0xfe00707f 0x4000503b 0x4020d1bb := by decide

/-- In bounds up to the last byte and out of bounds from the next, for 1, 2 and 4 bytes. -/
theorem witness_LoadsOfBothWidths :
    selects .I [.w32, .w64] 0x0000707f 0x00000003 0x00808183 ∧
    selects .I [.w32, .w64] 0x0000707f 0x00001003 0xfff09183 ∧
    selects .I [.w32, .w64] 0x0000707f 0x00002003 0xffc0a183 ∧
    selects .I [.w32, .w64] 0x0000707f 0x00004003 0x0080c183 ∧
    selects .I [.w32, .w64] 0x0000707f 0x00005003 0x8000d183 ∧
    (address (machine .w32 0 [(1, 0x1000)]) 1 (-1) + 1 ≤ 0x1000 ∧ 0x1000 < address (machine .w32 0 [(1, 0x1000)]) 1 0 + 1) ∧
    (address (machine .w32 0 [(1, 0x1000)]) 1 (-2) + 2 ≤ 0x1000 ∧ 0x1000 < address (machine .w32 0 [(1, 0x1000)]) 1 (-1) + 2) ∧
    (address (machine .w64 0 [(1, 0x1000)]) 1 (-4) + 4 ≤ 0x1000 ∧ 0x1000 < address (machine .w64 0 [(1, 0x1000)]) 1 (-3) + 4) ∧
    (machine .w32 0 []).cfg.memSize = 0x1000 ∧ (machine .w64 0 []).cfg.memSize = 0x1000 := by
  unfold address
  decide

theorem witness_LoadsOfWidth64Only :
    selects .I [.w64] 0x0000707f 0x00006003 0x0080e183 ∧ selects .I [.w64] 0x0000707f 0x00003003 0x7ff0b183 ∧
    (address (machine .w64 0 [(1, 0x1000)]) 1 (-8) + 8 ≤ 0x1000 ∧ 0x1000 < address (machine .w64 0 [(1, 0x1000)]) 1 (-7) + 8) ∧
    (machine .w64 0 []).cfg.memSize = 0x1000 := by
  unfold address
  decide

theorem witness_StoresWriteTheLowBytes :
    selects .I [.w32, .w64] 0x0000707f 0x00000023 0x00208423 ∧
    selects .I [.w32, .w64] 0x0000707f 0x00001023 0xfe209fa3 ∧
    selects .I [.w32, .w64] 0x0000707f 0x00002023 0xfe20ae23 ∧ selects .I [.w64] 0x0000707f 0x00003023 0x7e20bfa3 ∧
    (address (machine .w32 0 [(1, 0x1000)]) 1 (-1) + 1 ≤ 0x1000 ∧ 0x1000 < address (machine .w32 0 [(1, 0x1000)]) 1 0 + 1) ∧
    (address (machine .w32 0 [(1, 0x1000)]) 1 (-2) + 2 ≤ 0x1000 ∧ 0x1000 < address (machine .w32 0 [(1, 0x1000)]) 1 (-1) + 2) ∧
    (address (machine .w32 0 [(1, 0x1000)]) 1 (-4) + 4 ≤ 0x1000 ∧ 0x1000 < address (machine .w32 0 [(1, 0x1000)]) 1 (-3) + 4) ∧
    (address (machine .w64 0 [(1, 0x1000)]) 1 (-8) + 8 ≤ 0x1000 ∧ 0x1000 < address (machine .w64 0 [(1, 0x1000)]) 1 (-7) + 8) := by
  unfold address
  decide

/-- The bytes just below and just above a written word. -/
theorem witness_MemoryReadsBackWhatWasWritten : (0xff < 0x100 ∨ 0x100 + 4 ≤ 0xff) ∧ (0x104 < 0x100 ∨ 0x100 + 4 ≤ 0x104) := by
  decide

theorem witness_StoredWordIsFetched :
    address (machine .w64 0 [(1, 0x1000)]) 1 (-4) + 4 ≤ (machine .w64 0 [(1, 0x1000)]).cfg.memSize := by
  unfold address
  decide

/-- Each condition holds and fails somewhere, equal operands among them. -/
theorem witness_ConditionalBranches :
    selects .I [.w32, .w64] 0x0000707f 0x00000063 0x00208863 ∧
    selects .I [.w32, .w64] 0x0000707f 0x00001063 0xfe209ce3 ∧
    selects .I [.w32, .w64] 0x0000707f 0x00004063 0x7e41cfe3 ∧
    selects .I [.w32, .w64] 0x0000707f 0x00005063 0x8041d063 ∧
    selects .I [.w32, .w64] 0x0000707f 0x00006063 0x0062e163 ∧
    selects .I [.w32, .w64] 0x0000707f 0x00007063 0xfe0fffe3 ∧
    (5#32 = 5#32 ∧ 5#32 ≠ 6#32) ∧ ((-1 : BitVec 32).toInt < (1#32).toInt ∧ ¬ (5#32).toInt < (5#32).toInt) ∧
    ((5#32).toInt ≤ (5#32).toInt ∧ ¬ (1#32).toInt ≤ (-1 : BitVec 32).toInt) ∧
    ((1#32).toNat < (-1 : BitVec 32).toNat ∧ ¬ (5#32).toNat < (5#32).toNat) ∧
    ((5#32).toNat ≤ (5#32).toNat ∧ ¬ (-1 : BitVec 32).toNat ≤ (1#32).toNat) := by decide

theorem witness_JumpAndLink : selects .I [.w32, .w64] 0x0000007f 0x0000006f 0xffdff06f := by decide

theorem witness_JumpAndLinkRegister : selects .I [.w32, .w64] 0x0000707f 0x00000067 0x800280e7 := by decide

theorem witness_FenceOnlyAdvances :
    selects .I [.w32, .w64] 0x0000707f 0x0000000f 0x8330000f ∧
    selects .I [.w32, .w64] 0x0000707f 0x0000000f 0x00a5850f ∧
    Fetchable (machine .w32 0x0ff0000f [] [] 1) ∧ DecodesTo (machine .w32 0x0ff0000f [] [] 1) .fence ∧
    Fits (machine .w32 0x0ff0000f [] [] 1) .fence := by
  unfold Fetchable DecodesTo Fits
  decide

/-- ECALL and EBREAK with a budget that fits exactly. -/
theorem witness_EnvironmentInstructionsCompleteAndSignal :
    selects .I [.w32, .w64] 0xffffffff 0x00000073 0x00000073 ∧
    selects .I [.w32, .w64] 0xffffffff 0x00100073 0x00100073 ∧
    (Fetchable (machine .w32 0x73 [] [] 1) ∧ DecodesTo (machine .w32 0x73 [] [] 1) .ecall ∧
      Fits (machine .w32 0x73 [] [] 1) .ecall) ∧
    (Fetchable (machine .w64 0x00100073 [] [] 1) ∧ DecodesTo (machine .w64 0x00100073 [] [] 1) .ebreak ∧
      Fits (machine .w64 0x00100073 [] [] 1) .ebreak) := by
  unfold Fetchable DecodesTo Fits
  decide

/-- Executing completes: a register write, a store, a signal. -/
theorem exec_mul_completes : ∃ c, exec (.mul 3 1 2) State.reset = .next ⟨State.reset.cfg, c⟩ := ⟨_, rfl⟩
theorem exec_mul_to_x0_completes : ∃ c, exec (.mul 0 1 2) State.reset = .next ⟨State.reset.cfg, c⟩ := ⟨_, rfl⟩
theorem exec_sw_completes : ∃ c, exec (.sw 0 2 0x200) State.reset = .next ⟨State.reset.cfg, c⟩ := ⟨_, rfl⟩
theorem exec_ecall_completes : ∃ t, exec .ecall State.reset = .next t := ⟨_, rfl⟩
theorem exec_ebreak_completes : ∃ t, exec .ebreak State.reset = .next t := ⟨_, rfl⟩

theorem witness_OnlyControlTransfersSetThePc :
    (∃ c, exec (.mul 3 1 2) State.reset = .next ⟨State.reset.cfg, c⟩) ∧ (Instr.mul 3 1 2).transfersControl = false :=
  ⟨exec_mul_completes, rfl⟩

theorem witness_OnlyTheDestinationRegisterChanges :
    (∃ c, exec (.mul 0 1 2) State.reset = .next ⟨State.reset.cfg, c⟩) ∧ (Instr.mul 0 1 2).dest = 0 ∧ (1 : Reg) ≠ (Instr.mul 3 1 2).dest :=
  ⟨exec_mul_to_x0_completes, rfl, by decide⟩

theorem witness_OnlyStoresChangeMemory :
    (∃ c, exec (.mul 3 1 2) State.reset = .next ⟨State.reset.cfg, c⟩) ∧ (Instr.mul 3 1 2).storeSize = none ∧
    ∃ c, exec (.sw 0 2 0x200) State.reset = .next ⟨State.reset.cfg, c⟩ :=
  ⟨exec_mul_completes, rfl, exec_sw_completes⟩

theorem witness_InstructionsDoNotReachCountersOrConfiguration : ∃ t, exec .ecall State.reset = .next t :=
  exec_ecall_completes

theorem witness_OnlyEcallAndEbreakSignal :
    (∃ t, exec .ecall State.reset = .next t) ∧ ∃ t, exec .ebreak State.reset = .next t :=
  ⟨exec_ecall_completes, exec_ebreak_completes⟩

/-- A load and a store that run past the end. -/
theorem witness_OnlyLoadsAndStoresFault :
    (Instr.lw 3 1 0).fitsWidth (machine .w32 0 [(1, 0xffd)]).cfg.width = true ∧
    (∃ f, exec (.lw 3 1 0) (machine .w32 0 [(1, 0xffd)]) = .fault f) ∧
    ∃ f, exec (.sw 1 2 0) (machine .w32 0 [(1, 0xffd)]) = .fault f := ⟨rfl, ⟨_, rfl⟩, ⟨_, rfl⟩⟩

theorem witness_InstructionOfTheOtherWidthIsIllegal :
    (Instr.ld 3 1 8).fitsWidth (machine .w32 0 []).cfg.width = false ∧
    (Instr.slli 3 1 32).fitsWidth (machine .w32 0 []).cfg.width = false := by decide

theorem witness_DecodeOfEncodeIsTheInstruction :
    Instr.wellFormed .w64 [.I, .M] (.slli 3 1 63) = true ∧ Instr.wellFormed .w32 [.I, .M] (.slli 3 1 31) = true ∧
    Instr.wellFormed .w32 [.M] (.remu 3 1 2) = true ∧ Instr.wellFormed .w64 [.I] (.beq 1 2 (-4096)) = true := by decide

theorem witness_EncodeOfDecodeIsTheWord :
    decode .w32 [.I, .M] 0x022081b3 = some (.mul 3 1 2) ∧ Instr.mul 3 1 2 ≠ .fence := by decide

/-- The words next to ECALL and EBREAK, and ECALL with another `rd` (96_vectors_decode.md section 2). -/
theorem witness_SystemWordsAreEcallAndEbreakOnly :
    [0x00200073, 0x000000f3, 0x30529073].all
      (fun w : InsnWord => w.extractLsb' 0 7 == 0b1110011#7 && w != 0x00000073 && w != 0x00100073) = true := by decide

theorem witness_WordsOutsideTheOpcodeSpaceAreIllegal :
    [0x00000000, 0x00000001, 0x00008082].all (fun w : InsnWord => w.extractLsb' 0 2 != 0b11#2) = true := by decide

/-- An instruction that completes and one that faults, both fetched, decoded and within the budget. -/
theorem witness_StepRunsTheDecodedInstruction :
    (Fetchable (costlyDiv 1) ∧ DecodesTo (costlyDiv 1) (.div 3 1 2) ∧ Fits (costlyDiv 1) (.div 3 1 2) ∧
      ∃ t, exec (.div 3 1 2) (costlyDiv 1) = .next t) ∧
    (Fetchable (machine .w32 0x0000a183 [(1, 0xffd)]) ∧ DecodesTo (machine .w32 0x0000a183 [(1, 0xffd)]) (.lw 3 1 0) ∧
      Fits (machine .w32 0x0000a183 [(1, 0xffd)]) (.lw 3 1 0) ∧
      ∃ f, exec (.lw 3 1 0) (machine .w32 0x0000a183 [(1, 0xffd)]) = .fault f) := by
  unfold Fetchable DecodesTo Fits
  exact ⟨⟨by decide, by decide, by decide, ⟨_, rfl⟩⟩, ⟨by decide, by decide, by decide, ⟨_, rfl⟩⟩⟩

/-- The last pc that can be fetched from and the next one. -/
theorem witness_FetchFaultsExactlyOutOfBounds :
    Fetchable ((machine .w32 0x13 []).hostSetPc (BitVec.ofNat _ 0xffc)) ∧
    ((machine .w32 0x13 []).hostSetPc (BitVec.ofNat _ 0xffd)).cfg.memSize <
      ((machine .w32 0x13 []).hostSetPc (BitVec.ofNat _ 0xffd)).arch.pc.toNat + 4 := by
  unfold Fetchable
  decide

theorem witness_IllegalWordIsADecodeError :
    Fetchable State.reset ∧ decode State.reset.cfg.width State.reset.cfg.extensions (wordAtPc State.reset) = none := by
  unfold Fetchable
  decide

/-- One cycle short, and a cost that fits exactly. -/
theorem witness_BudgetHaltsBeforeTheInstruction :
    (Fetchable (costlyDiv 2) ∧ DecodesTo (costlyDiv 2) (.div 3 1 2) ∧
      (costlyDiv 2).arch.budget.toNat < (costlyDiv 2).arch.cycles.toNat + (costlyDiv 2).cfg.cost (.div 3 1 2)) ∧
    Fetchable (costlyDiv 1) ∧ DecodesTo (costlyDiv 1) (.div 3 1 2) ∧
    (costlyDiv 1).arch.cycles.toNat + (costlyDiv 1).cfg.cost (.div 3 1 2) ≤ (costlyDiv 1).arch.budget.toNat := by
  unfold Fetchable DecodesTo
  decide

theorem witness_CompletedInstructionIsCharged : ∃ t, step (costlyDiv 1) = .next t := ⟨_, rfl⟩

/-- A load past the end, with this budget (98_vectors_mem_control.md X-8, X-9). -/
abbrev badLoad (budget : Nat) : State := machine .w32 0x0000a183 [(1, 0xffd)] [] budget

/-- Each condition in turn: no fetch, no decoding, no budget, a faulting load, a signal, neither. -/
theorem witness_ConditionsAreReportedInStageOrder :
    ¬ Fetchable ((machine .w32 0x13 []).hostSetPc (BitVec.ofNat _ 0xffd)) ∧
    (Fetchable State.reset ∧ decode State.reset.cfg.width State.reset.cfg.extensions (wordAtPc State.reset) = none) ∧
    (Fetchable (badLoad 0) ∧ DecodesTo (badLoad 0) (.lw 3 1 0) ∧ ¬ Fits (badLoad 0) (.lw 3 1 0)) ∧
    (Fetchable (badLoad 1) ∧ DecodesTo (badLoad 1) (.lw 3 1 0) ∧ Fits (badLoad 1) (.lw 3 1 0) ∧
      exec (.lw 3 1 0) (badLoad 1) = .fault (.memoryFault 0xffd 4 .load)) ∧
    (Fetchable (machine .w32 0x73 []) ∧ DecodesTo (machine .w32 0x73 []) .ecall ∧ Fits (machine .w32 0x73 []) .ecall ∧
      ∃ t, exec .ecall (machine .w32 0x73 []) = .next t ∧ t.arch.signal = some .environmentCall) ∧
    (Fetchable (costlyDiv 1) ∧ DecodesTo (costlyDiv 1) (.div 3 1 2) ∧ Fits (costlyDiv 1) (.div 3 1 2) ∧
      ∃ t, exec (.div 3 1 2) (costlyDiv 1) = .next t ∧ t.arch.signal = none) := by
  unfold Fetchable DecodesTo Fits
  exact ⟨by decide, by decide, by decide, ⟨by decide, by decide, by decide, rfl⟩,
    ⟨by decide, by decide, by decide, ⟨_, rfl, rfl⟩⟩, ⟨by decide, by decide, by decide, ⟨_, rfl, rfl⟩⟩⟩

/-- A store of the last word of memory is unhindered; one byte further on it runs past the end and is hindered. -/
theorem witness_NoPartialEffects :
    Unhindered (machine .w32 0x0020a023 [(1, 0xffc)]) (.sw 1 2 0) ∧
    (Fetchable (machine .w32 0x0020a023 [(1, 0xffd)]) ∧ DecodesTo (machine .w32 0x0020a023 [(1, 0xffd)]) (.sw 1 2 0) ∧
      Fits (machine .w32 0x0020a023 [(1, 0xffd)]) (.sw 1 2 0) ∧
      dataAccess (machine .w32 0x0020a023 [(1, 0xffd)]) (.sw 1 2 0) = some (0xffd, 4, .store) ∧
      (machine .w32 0x0020a023 [(1, 0xffd)]).cfg.memSize < 0xffd + 4) := by
  have h : dataAccess (machine .w32 0x0020a023 [(1, 0xffc)]) (.sw 1 2 0) = some (0xffc, 4, .store) := by decide
  refine ⟨⟨?_, ?_, ?_, fun a n k ha => ?_⟩, ?_⟩
  · unfold Fetchable; decide
  · unfold DecodesTo; decide
  · unfold Fits; decide
  · cases h.symm.trans ha
    decide
  · unfold Fetchable DecodesTo Fits
    decide

/-- No instruction of the reset machine is unhindered: its word is illegal. -/
theorem witness_NoPartialEffects_hindered (i : Instr) : ¬ Unhindered State.reset i := by
  rintro ⟨_, hd, _⟩
  have h : decode State.reset.cfg.width State.reset.cfg.extensions (wordAtPc State.reset) = none := by decide
  exact nomatch h.symm.trans hd

/-- A halted machine, and the least budget the instruction fits. -/
theorem witness_HostResumesAfterAHalt :
    outcome (costlyDiv 2) = .halt (costlyDiv 2) ∧ DecodesTo (costlyDiv 2) (.div 3 1 2) ∧
    (costlyDiv 2).arch.cycles.toNat + (costlyDiv 2).cfg.cost (.div 3 1 2) ≤ (6#64).toNat :=
  ⟨rfl, by unfold DecodesTo; decide, by decide⟩

theorem store_inv : (machine .w32 0x0020a023 [(1, 0x300), (2, 5)]).Inv := ⟨by decide, by decide, by decide, by decide⟩

/-- A legal machine that completes a store. -/
theorem witness_EveryStepKeepsTheInvariant :
    (machine .w32 0x0020a023 [(1, 0x300), (2, 5)]).Inv ∧
    ∃ t, step (machine .w32 0x0020a023 [(1, 0x300), (2, 5)]) = .next t := ⟨store_inv, ⟨_, rfl⟩⟩

/-- A configuration and an image that meet the premises. -/
theorem witness_ResetMeetsTheInvariant :
    Config.reference.wf ∧ Memory.wf loadMem ∧ Memory.within loadMem Config.reference.memSize := by decide

/-- The premise at its boundary: a budget already used up. -/
theorem witness_BudgetBoundsEveryRun :
    (costlyDiv 5).arch.cycles.toNat ≤ (costlyDiv 5).arch.budget.toNat ∧
    (costlyDiv 1).arch.cycles.toNat ≤ (costlyDiv 1).arch.budget.toNat := by decide

end Sys2Proof.Tests
end

section
/-! SUPPORT. Proofs of the family 00_scope.md: what an executed instruction leaves unchanged outside the registers, `pc`,
the memory and the outputs. -/

namespace Sys2Proof.Machine

/-- The counterpart of `step_next` for the execution alone: a next state is the commit of effects of the instruction's
shape (40_dispatch.md R120 stages 4 and 5). -/
theorem exec_next {i : Instr} {s t : State} (h : exec i s = .next t) :
    ∃ e : Effects s.W, EffectShape i s e ∧ t = s.commit e := by
  have hshape : ExecShape i s (.next t) := h ▸ exec_shape i s
  cases hshape with
  | completes e he => exact ⟨e, he, rfl⟩

/-- Settles O29: a completed instruction is a commit, and a commit writes none of the three (R8, R27, R28; the charge is
the step's, log 21). -/
theorem instructionsDoNotReachCountersOrConfiguration :
    Obligations.InstructionsDoNotReachCountersOrConfiguration := by
  intro i s t h
  obtain ⟨e, -, rfl⟩ := exec_next h
  exact ⟨s.commit_cfg e, s.arch.commit_cycles e, s.arch.commit_budget e⟩

end Sys2Proof.Machine
end

section
/-! SUPPORT. Proofs of the family 10_state.md: register 0, the invariant of a legal machine along a step, the outputs of
earlier steps. -/

namespace Sys2Proof.Machine

open Sys2Proof.Spec

/-- Settles O25: the three rules of the register operations (R22). -/
theorem registerZeroIsHardWired : Obligations.RegisterZeroIsHardWired :=
  fun _ c i v => ⟨c.x_zero, c.setX_zero v, fun q => c.x_setX i q v⟩

/-! ### The invariant of a legal machine (10_state.md R28, 20_memory.md R50) -/

theorem Memory.wf_commit {m : Memory} (hwf : m.wf) (o : Option MemWrite) : (m.commit o).wf := by
  cases o with
  | none => exact hwf
  | some a => exact Memory.wf_writeLE a.size hwf a.addr a.value

/-- A memory write that passed its bounds test lists nothing outside the extent. -/
theorem Memory.within_commit {m : Memory} {k : Nat} (hin : m.within k) {o : Option MemWrite}
    (ho : ∀ a, o = some a → a.addr + a.size ≤ k) : (m.commit o).within k := by
  cases o with
  | none => exact hin
  | some a => exact Memory.within_writeLE a.size hin a.addr a.value (ho a rfl)

theorem State.overBudget_eq_false_iff {s : State} {i : Instr} : s.overBudget i = false ↔ Fits s i := by
  simp [State.overBudget, Fits]

@[simp] theorem State.commit_overBudget (s : State) (e : Effects s.W) (i : Instr) :
    (s.commit e).overBudget i = s.overBudget i := by
  simp [State.overBudget]

/-- A budget is a 64-bit value, so the charge of an instruction that fits does not wrap (40_dispatch.md R126, R127). -/
theorem State.toNat_charge_cycles {s : State} {i : Instr} (hb : s.overBudget i = false) :
    (s.charge i).arch.cycles.toNat = s.arch.cycles.toNat + s.cfg.cost i := by
  have hfits : s.arch.cycles.toNat + s.cfg.cost i ≤ s.arch.budget.toNat := State.overBudget_eq_false_iff.1 hb
  rw [State.charge_cycles, BitVec.toNat_ofNat, Nat.mod_eq_of_lt (hfits.trans_lt s.arch.budget.isLt)]

/-- The bounds test of the one memory write is what the extent needs (20_memory.md R51). -/
theorem State.Inv.commit {i : Instr} {s : State} {e : Effects s.W} (h : s.Inv) (he : EffectShape i s e) :
    (s.commit e).Inv where
  cfg := h.cfg
  memWf := Memory.wf_commit h.memWf e.mem
  memWithin := Memory.within_commit h.memWithin fun a ha => (he.mem a ha).1
  budget := by simpa using h.budget

/-- The budget check is what `cycles <= budget` needs (40_dispatch.md R126). -/
theorem State.Inv.charge {i : Instr} {s : State} (h : s.Inv) (hb : s.overBudget i = false) : (s.charge i).Inv where
  cfg := h.cfg
  memWf := h.memWf
  memWithin := h.memWithin
  budget := State.toNat_charge_cycles hb ▸ State.overBudget_eq_false_iff.1 hb

/-- Settles O51: a step that completes is a commit of bounded effects and the charge of an instruction that fits. -/
theorem everyStepKeepsTheInvariant : Obligations.EveryStepKeepsTheInvariant := by
  intro s t hinv hstep
  obtain ⟨_, i, e, -, -, hb, he, rfl⟩ := step_next hstep
  have hcommit : (s.commit e).Inv := hinv.commit he
  exact ⟨hcommit.charge (by simpa using hb), rfl, s.arch.commit_budget e⟩

/-! ### The outputs of earlier steps (10_state.md R37, log 7)

A commit sets both outputs anew and takes everything else from fields that are no outputs, so every shape of a meaning
answers alike from two states that differ in outputs only; the operands, the fetch, the decoding and the budget check of
the two are the same by definition. -/

theorem Arch.setX_outputs {w : Nat} (c : Arch w) (g : Option Signal) (e : Option StoreEvent) (rd : Reg) (v : BitVec w) :
    { c with signal := g, storeEvent := e }.setX rd v = { c.setX rd v with signal := g, storeEvent := e } := by
  unfold Arch.setX
  split <;> rfl

theorem Arch.commit_outputs {w : Nat} (c : Arch w) (g : Option Signal) (e : Option StoreEvent) (f : Effects w) :
    { c with signal := g, storeEvent := e }.commit f = c.commit f := by
  obtain ⟨_ | ⟨rd, v⟩, m, p, u⟩ := f
  · rfl
  · simp [Arch.commit, Arch.setX_outputs]

section

variable (s : State) (g : Option Signal) (e : Option StoreEvent)

theorem State.commit_withOutputs (f : Effects s.W) : (withOutputs s g e).commit f = s.commit f :=
  congrArg (State.mk s.cfg) (s.arch.commit_outputs g e f)

theorem State.finish_withOutputs (f : Effects s.W) : (withOutputs s g e).finish f = s.finish f :=
  congrArg Host.Outcome.next (s.commit_withOutputs g e f)

theorem State.whenLegal_withOutputs (i : Instr) {r r' : Result} (h : r = r') :
    (withOutputs s g e).whenLegal i r = s.whenLegal i r' :=
  h ▸ rfl

theorem State.load_withOutputs (rd rs1 : Reg) (imm : BitVec 12) (n : Nat) (ext : Nat → BitVec s.W) :
    (withOutputs s g e).load rd rs1 imm n ext = s.load rd rs1 imm n ext := by
  rcases Nat.lt_or_ge s.cfg.memSize ((s.effAddr rs1 imm).toNat + n) with h | h
  · rw [State.load_outOfBounds h]
    exact State.load_outOfBounds (s := withOutputs s g e) h
  · rw [State.load_inBounds h]
    exact (State.load_inBounds (s := withOutputs s g e) h).trans (s.finish_withOutputs g e _)

theorem State.store_withOutputs (rs1 rs2 : Reg) (imm : BitVec 12) (n : Nat) :
    (withOutputs s g e).store rs1 rs2 imm n = s.store rs1 rs2 imm n := by
  rcases Nat.lt_or_ge s.cfg.memSize ((s.effAddr rs1 imm).toNat + n) with h | h
  · rw [State.store_outOfBounds h]
    exact State.store_outOfBounds (s := withOutputs s g e) h
  · rw [State.store_inBounds h]
    exact (State.store_inBounds (s := withOutputs s g e) h).trans (s.finish_withOutputs g e _)

theorem exec_withOutputs (i : Instr) : exec i (withOutputs s g e) = exec i s := by
  cases i
  case lb | lh | lw | lbu | lhu => exact s.load_withOutputs g e _ _ _ _ _
  case lwu | ld => exact s.whenLegal_withOutputs g e _ (s.load_withOutputs g e _ _ _ _ _)
  case sb | sh | sw => exact s.store_withOutputs g e _ _ _ _
  case sd => exact s.whenLegal_withOutputs g e _ (s.store_withOutputs g e _ _ _ _)
  case slli | srli | srai | addiw | slliw | srliw | sraiw | addw | subw | sllw | srlw | sraw =>
    exact s.whenLegal_withOutputs g e _ (s.finish_withOutputs g e _)
  all_goals exact s.finish_withOutputs g e _

end

/-- Settles O48: the stages before the execution read no output, and the execution answers alike. -/
theorem stepDoesNotReadEarlierOutputs : Obligations.StepDoesNotReadEarlierOutputs := by
  intro s g e
  have hfetch : (withOutputs s g e).fetch = s.fetch := rfl
  have hdecoded : (withOutputs s g e).decoded = s.decoded := rfl
  have hbudget : (withOutputs s g e).overBudget = s.overBudget := rfl
  simp only [step, hfetch, hdecoded, hbudget, exec_withOutputs]

end Sys2Proof.Machine
end

section
/-! SUPPORT. Proofs of the family 20_memory.md: reading back what was written, fetching a stored word, which
instructions touch memory. -/

namespace Sys2Proof.Machine

open Sys2Proof.Spec

/-! ### Reading back (20_memory.md R53, R54) -/

/-- Settles O18: the two reading rules of a write of several bytes, its modulus in the spec's spelling. -/
theorem memoryReadsBackWhatWasWritten : Obligations.MemoryReadsBackWhatWasWritten := by
  intro m a n v
  refine ⟨?_, fun b hb => Memory.read_writeLE_outside hb⟩
  have hbase : 2 ^ (8 * n) = 256 ^ n := pow_mul 2 8 n
  rw [Memory.readLE_writeLE, hbase]

/-! ### A stored word is fetched (20_memory.md R55, R63) -/

/-- The model's effective address, a sum of words, is the spec's, a wrapped sum of integers (43_base_loadstore.md
R221). -/
theorem State.toNat_effAddr (s : State) (rs1 : Reg) (imm : BitVec 12) :
    (s.effAddr rs1 imm).toNat = address s rs1 imm := by
  have hsum : s.effAddr rs1 imm = BitVec.ofInt s.W ((s.x rs1).toNat + imm.toInt) := by
    rw [BitVec.ofInt_add, BitVec.ofInt_natCast, BitVec.ofNat_toNat, BitVec.setWidth_eq]
    rfl
  rw [hsum, address]

/-- An in-bounds store completes with its one memory write committed. -/
theorem State.store_completes {s : State} {rs1 rs2 : Reg} {imm : BitVec 12} {n : Nat}
    (h : address s rs1 imm + n ≤ s.cfg.memSize) :
    s.store rs1 rs2 imm n = .next (s.commit { mem := some ⟨address s rs1 imm, n, (s.x rs2).toNat⟩ }) := by
  rw [← State.toNat_effAddr] at h ⊢
  exact State.store_inBounds h

/-- In bounds, the fetch gives the four bytes at the pc (40_dispatch.md R121). -/
theorem State.fetch_inBounds {s : State} (h : s.arch.pc.toNat + 4 ≤ s.cfg.memSize) :
    s.fetch = .ok (BitVec.ofNat 32 (s.arch.mem.readLE s.arch.pc.toNat 4)) := by
  have hread : s.memRead s.pc 4 .fetch = .ok (s.arch.mem.readLE s.arch.pc.toNat 4) := State.memRead_inBounds _ h
  simp only [State.fetch, hread]

/-- An in-bounds fetch of a word that was written where the pc points. -/
theorem State.fetch_writeLE {s : State} {m : Memory} {v : Nat} (h : s.arch.pc.toNat + 4 ≤ s.cfg.memSize)
    (hmem : s.arch.mem = m.writeLE s.arch.pc.toNat 4 v) : s.fetch = .ok (BitVec.ofNat 32 v) := by
  have hmod : BitVec.ofNat 32 (v % 256 ^ 4) = BitVec.ofNat 32 v :=
    BitVec.eq_of_toNat_eq (by simp)
  rw [State.fetch_inBounds h, hmem, Memory.readLE_writeLE, hmod]

/-- Settles O19: SW's write stands at the effective address, fetch and data share the one memory, and an effective
address is a pc. -/
theorem storedWordIsFetched : Obligations.StoredWordIsFetched := by
  intro s rs1 rs2 imm h
  have hpc : (BitVec.ofNat s.W (address s rs1 imm)).toNat = address s rs1 imm := by
    rw [← State.toNat_effAddr, BitVec.ofNat_toNat, BitVec.setWidth_eq]
  refine ⟨_, State.store_completes h, ?_⟩
  rw [← BitVec.ofNat_toNat]
  exact State.fetch_writeLE (m := s.arch.mem) (hpc.symm ▸ h) (hpc.symm ▸ rfl)

/-! ### Which instructions touch memory (20_memory.md R56, R62) -/

/-- An instruction's memory write has its store size, and one without a store size has no memory write. -/
theorem EffectShape.map_size_mem {i : Instr} {s : State} {e : Effects s.W} (he : EffectShape i s e) :
    e.mem.map (·.size) = i.storeSize := by
  cases hm : e.mem with
  | none => exact (he.memNone hm).symm
  | some a => exact (he.mem a hm).2.symm

/-- Settles O28: the store event and the memory of a commit are those of its memory write. -/
theorem onlyStoresChangeMemory : Obligations.OnlyStoresChangeMemory := by
  intro i s c h
  obtain ⟨e, he, hc⟩ := exec_next h
  obtain rfl : c = s.arch.commit e := by cases hc; rfl
  have hsize := he.map_size_mem
  refine ⟨?_, fun hi a => ?_⟩
  · rw [Arch.commit_storeEvent, Option.map_map]
    exact hsize
  · have hnone : e.mem = none := Option.map_eq_none_iff.1 (hsize.trans hi)
    rw [Arch.commit_mem, hnone, Memory.commit_none]

end Sys2Proof.Machine
end

section
/-! SUPPORT. Proofs of the family 30_encoding.md: which words select a row, decoding what was encoded, encoding what was
decoded, the words no row takes. -/

namespace Sys2Proof

open Sys2Proof.Laws

/-! ### Rows and the aggregate decoder (30_encoding.md R93, R94) -/

/-- What the aggregate decoder answers, it reads by a row of an enabled extension that applies at the width. -/
theorem decode_eq_some {wd : Width} {exts : List Extension} {w : InsnWord} {i : Instr} (h : decode wd exts w = some i) :
    ∃ r ∈ opcodeMap, r.ext ∈ exts ∧ wd ∈ r.widths ∧ w &&& r.mask = r.pat ∧ r.build w = i := by
  obtain ⟨e, he, hd⟩ := decode_eq_some_iff.1 h
  obtain ⟨r, hr, rfl, hwd, hs, hb⟩ := decodeExt_eq_some hd
  exact ⟨r, hr, he, hwd, by simpa [Row.selects] using hs, hb⟩

/-- A word that selects no row is illegal at both widths, whatever is enabled. -/
theorem decode_eq_none {w : InsnWord} (h : ∀ r ∈ opcodeMap, w &&& r.mask ≠ r.pat) (wd : Width)
    (exts : List Extension) : decode wd exts w = none := by
  rw [Option.eq_none_iff_forall_ne_some]
  intro i hd
  obtain ⟨r, hr, -, -, hs, -⟩ := decode_eq_some hd
  exact h r hr hs

/-- A field the mask covers is in the word what it is in the row's pattern. -/
theorem field_eq_of_mask {w mask pat : InsnWord} (hs : w &&& mask = pat) {lo n : Nat}
    (hm : field mask lo n = BitVec.allOnes n) : field w lo n = field pat lo n := by
  simp only [field] at hm ⊢
  rw [← hs, BitVec.extractLsb'_and, hm, BitVec.and_allOnes]

/-- Every row fixes the whole opcode (R96 to R103). -/
theorem opcodeF_mask : ∀ r ∈ opcodeMap, opcodeF r.mask = BitVec.allOnes 7 := by
  decide

theorem opcodeF_eq_of_selects {r : Row} (hr : r ∈ opcodeMap) {w : InsnWord} (hs : w &&& r.mask = r.pat) :
    opcodeF w = opcodeF r.pat :=
  field_eq_of_mask hs (opcodeF_mask r hr)

/-! ### Decoding what was encoded (R105) -/

/-- The laws of the single instructions, put together. -/
theorem encodeSelectsRow : ∀ i : Instr, EncodeSelectsRow.Statement i
  | .mul _ _ _ => EncodeSelectsRow.mul _ _ _
  | .mulh _ _ _ => EncodeSelectsRow.mulh _ _ _
  | .mulhsu _ _ _ => EncodeSelectsRow.mulhsu _ _ _
  | .mulhu _ _ _ => EncodeSelectsRow.mulhu _ _ _
  | .div _ _ _ => EncodeSelectsRow.div _ _ _
  | .divu _ _ _ => EncodeSelectsRow.divu _ _ _
  | .rem _ _ _ => EncodeSelectsRow.rem _ _ _
  | .remu _ _ _ => EncodeSelectsRow.remu _ _ _
  | .lui _ _ => EncodeSelectsRow.lui _ _
  | .auipc _ _ => EncodeSelectsRow.auipc _ _
  | .jal _ _ => EncodeSelectsRow.jal _ _
  | .jalr _ _ _ => EncodeSelectsRow.jalr _ _ _
  | .beq _ _ _ => EncodeSelectsRow.beq _ _ _
  | .bne _ _ _ => EncodeSelectsRow.bne _ _ _
  | .blt _ _ _ => EncodeSelectsRow.blt _ _ _
  | .bge _ _ _ => EncodeSelectsRow.bge _ _ _
  | .bltu _ _ _ => EncodeSelectsRow.bltu _ _ _
  | .bgeu _ _ _ => EncodeSelectsRow.bgeu _ _ _
  | .lb _ _ _ => EncodeSelectsRow.lb _ _ _
  | .lh _ _ _ => EncodeSelectsRow.lh _ _ _
  | .lw _ _ _ => EncodeSelectsRow.lw _ _ _
  | .lbu _ _ _ => EncodeSelectsRow.lbu _ _ _
  | .lhu _ _ _ => EncodeSelectsRow.lhu _ _ _
  | .lwu _ _ _ => EncodeSelectsRow.lwu _ _ _
  | .ld _ _ _ => EncodeSelectsRow.ld _ _ _
  | .sb _ _ _ => EncodeSelectsRow.sb _ _ _
  | .sh _ _ _ => EncodeSelectsRow.sh _ _ _
  | .sw _ _ _ => EncodeSelectsRow.sw _ _ _
  | .sd _ _ _ => EncodeSelectsRow.sd _ _ _
  | .addi _ _ _ => EncodeSelectsRow.addi _ _ _
  | .slti _ _ _ => EncodeSelectsRow.slti _ _ _
  | .sltiu _ _ _ => EncodeSelectsRow.sltiu _ _ _
  | .xori _ _ _ => EncodeSelectsRow.xori _ _ _
  | .ori _ _ _ => EncodeSelectsRow.ori _ _ _
  | .andi _ _ _ => EncodeSelectsRow.andi _ _ _
  | .slli _ _ _ => EncodeSelectsRow.slli _ _ _
  | .srli _ _ _ => EncodeSelectsRow.srli _ _ _
  | .srai _ _ _ => EncodeSelectsRow.srai _ _ _
  | .add _ _ _ => EncodeSelectsRow.add _ _ _
  | .sub _ _ _ => EncodeSelectsRow.sub _ _ _
  | .sll _ _ _ => EncodeSelectsRow.sll _ _ _
  | .slt _ _ _ => EncodeSelectsRow.slt _ _ _
  | .sltu _ _ _ => EncodeSelectsRow.sltu _ _ _
  | .xor _ _ _ => EncodeSelectsRow.xor _ _ _
  | .srl _ _ _ => EncodeSelectsRow.srl _ _ _
  | .sra _ _ _ => EncodeSelectsRow.sra _ _ _
  | .or _ _ _ => EncodeSelectsRow.or _ _ _
  | .and _ _ _ => EncodeSelectsRow.and _ _ _
  | .addiw _ _ _ => EncodeSelectsRow.addiw _ _ _
  | .slliw _ _ _ => EncodeSelectsRow.slliw _ _ _
  | .srliw _ _ _ => EncodeSelectsRow.srliw _ _ _
  | .sraiw _ _ _ => EncodeSelectsRow.sraiw _ _ _
  | .addw _ _ _ => EncodeSelectsRow.addw _ _ _
  | .subw _ _ _ => EncodeSelectsRow.subw _ _ _
  | .sllw _ _ _ => EncodeSelectsRow.sllw _ _ _
  | .srlw _ _ _ => EncodeSelectsRow.srlw _ _ _
  | .sraw _ _ _ => EncodeSelectsRow.sraw _ _ _
  | .fence => EncodeSelectsRow.fence
  | .ecall => EncodeSelectsRow.ecall
  | .ebreak => EncodeSelectsRow.ebreak

theorem Instr.wellFormed_iff {wd : Width} {exts : List Extension} {i : Instr} :
    i.wellFormed wd exts = true ↔ i.ext ∈ exts ∧ i.fitsWidth wd = true ∧ i.evenOffset = true := by
  simp [Instr.wellFormed, and_assoc]

/-- Settles O33: the word of a well-formed instruction selects a row, and that row gives the instruction back. -/
theorem decodeOfEncodeIsTheInstruction : Obligations.DecodeOfEncodeIsTheInstruction := by
  intro wd exts i hwf
  obtain ⟨hext, hfits, heven⟩ := Instr.wellFormed_iff.1 hwf
  obtain ⟨r, hr, hre, hwd, hs, hb⟩ := encodeSelectsRow i wd hfits heven
  rw [decode_of_selects hr hwd (hre ▸ hext) hs, hb]

/-! ### Fields placed where they were taken from (R82 to R89) -/

/-- A field put back in its place is the word cut down to that place. -/
theorem place_field (w : InsnWord) (lo n : Nat) : place lo (field w lo n) = w &&& place lo (BitVec.allOnes n) := by
  apply BitVec.eq_of_getLsbD_eq
  intro i hi
  simp only [field, BitVec.getLsbD_and, getLsbD_place, BitVec.getLsbD_extractLsb', BitVec.getLsbD_allOnes]
  by_cases hlo : lo ≤ i
  · rw [Nat.add_sub_cancel' hlo]
    simp [hi, hlo, Bool.and_comm]
  · simp [hlo]

/-- A word cut down to parts that cover it is the word. -/
theorem and_eq_self_of_cover {m : InsnWord} (h : m = BitVec.allOnes 32) (w : InsnWord) : w &&& m = w := by
  rw [h, BitVec.and_allOnes]

/-- Zeros above a value do not change what is placed. -/
theorem place_zext {lo n m : Nat} (v : BitVec n) (h : n ≤ m) : place lo (zext v : BitVec m) = place lo v := by
  apply BitVec.eq_of_getLsbD_eq
  intro i _
  simp only [zext, getLsbD_place, BitVec.getLsbD_setWidth]
  by_cases hi : i - lo < m
  · simp [hi]
  · simp [hi, BitVec.getLsbD_of_ge v (i - lo) (h.trans (Nat.not_lt.1 hi))]

/-- The two parts of the S-immediate (R85). -/
theorem parts_bitsS (w : InsnWord) :
    (bitsS w).extractLsb' 0 5 = field w 7 5 ∧ (bitsS w).extractLsb' 5 7 = field w 25 7 := by
  and_intros
  all_goals
    apply BitVec.eq_of_getLsbD_eq
    intro i hi
    simp only [bitsS, BitVec.getLsbD_extractLsb', BitVec.getLsbD_append, hi]
    interval_cases i <;> simp

/-- The four parts of the B-immediate above its bit 0 (R86). -/
theorem parts_bitsB (w : InsnWord) :
    (bitsB w).extractLsb' 12 1 = field w 31 1 ∧ (bitsB w).extractLsb' 11 1 = field w 7 1 ∧
    (bitsB w).extractLsb' 5 6 = field w 25 6 ∧ (bitsB w).extractLsb' 1 4 = field w 8 4 := by
  and_intros
  all_goals
    apply BitVec.eq_of_getLsbD_eq
    intro i hi
    simp only [bitsB, BitVec.getLsbD_extractLsb', BitVec.getLsbD_append, hi]
    interval_cases i <;> simp

/-- The four parts of the J-immediate above its bit 0 (R88). -/
theorem parts_bitsJ (w : InsnWord) :
    (bitsJ w).extractLsb' 20 1 = field w 31 1 ∧ (bitsJ w).extractLsb' 12 8 = field w 12 8 ∧
    (bitsJ w).extractLsb' 11 1 = field w 20 1 ∧ (bitsJ w).extractLsb' 1 10 = field w 21 10 := by
  and_intros
  all_goals
    apply BitVec.eq_of_getLsbD_eq
    intro i hi
    simp only [bitsJ, BitVec.getLsbD_extractLsb', BitVec.getLsbD_append, hi]
    interval_cases i <;> simp

theorem bitsB_even (w : InsnWord) : (!(bitsB w).getLsbD 0) = true := by
  simp only [bitsB, BitVec.getLsbD_append]
  rfl

theorem bitsJ_even (w : InsnWord) : (!(bitsJ w).getLsbD 0) = true := by
  simp only [bitsJ, BitVec.getLsbD_append]
  rfl

/-! ### The fields of a word and what selects its row give the word back (R83, R105) -/

section

variable {w pat : InsnWord}

theorem encR_fields (hs : w &&& 0xfe00707f = pat) : encR pat (rdF w) (rs1F w) (rs2F w) = w := by
  simp only [encR, rdF, rs1F, rs2F, place_field, ← hs, ← BitVec.and_or_distrib_left]
  exact and_eq_self_of_cover (by decide) w

theorem encI_fields (hs : w &&& 0x0000707f = pat) : encI pat (rdF w) (rs1F w) (bitsI w) = w := by
  simp only [encI, rdF, rs1F, bitsI, place_field, ← hs, ← BitVec.and_or_distrib_left]
  exact and_eq_self_of_cover (by decide) w

theorem encS_fields (hs : w &&& 0x0000707f = pat) : encS pat (rs1F w) (rs2F w) (bitsS w) = w := by
  obtain ⟨h0, h5⟩ := parts_bitsS w
  simp only [encS, rs1F, rs2F, h0, h5, place_field, ← hs, ← BitVec.and_or_distrib_left]
  exact and_eq_self_of_cover (by decide) w

theorem encB_fields (hs : w &&& 0x0000707f = pat) : encB pat (rs1F w) (rs2F w) (bitsB w) = w := by
  obtain ⟨h12, h11, h5, h1⟩ := parts_bitsB w
  simp only [encB, rs1F, rs2F, h12, h11, h5, h1, place_field, ← hs, ← BitVec.and_or_distrib_left]
  exact and_eq_self_of_cover (by decide) w

theorem encU_fields (hs : w &&& 0x0000007f = pat) : encU pat (rdF w) (bitsU w) = w := by
  simp only [encU, rdF, bitsU, place_field, ← hs, ← BitVec.and_or_distrib_left]
  exact and_eq_self_of_cover (by decide) w

theorem encJ_fields (hs : w &&& 0x0000007f = pat) : encJ pat (rdF w) (bitsJ w) = w := by
  obtain ⟨h20, h12, h11, h1⟩ := parts_bitsJ w
  simp only [encJ, rdF, h20, h12, h11, h1, place_field, ← hs, ← BitVec.and_or_distrib_left]
  exact and_eq_self_of_cover (by decide) w

theorem encShift_fields5 (hs : w &&& 0xfe00707f = pat) : encShift pat (rdF w) (rs1F w) (shamt5 w) = w := by
  simp only [encShift, rdF, rs1F, shamt5, place_field, ← hs, ← BitVec.and_or_distrib_left]
  exact and_eq_self_of_cover (by decide) w

theorem encShift_fields6 (hs : w &&& 0xfc00707f = pat) : encShift pat (rdF w) (rs1F w) (shamt6 w) = w := by
  simp only [encShift, rdF, rs1F, shamt6, place_field, ← hs, ← BitVec.and_or_distrib_left]
  exact and_eq_self_of_cover (by decide) w

theorem encShift_zext (pat : InsnWord) (rd rs1 : Reg) (amt : BitVec 5) :
    encShift pat rd rs1 (zext amt : BitVec 6) = encShift pat rd rs1 amt := by
  rw [encShift, place_zext amt (by decide), encShift]

end

/-! ### Encoding what was decoded (R105) -/

/-- `i` is an instruction of extension `e`, legal at the widths `ws`, with an offset the encoding admits, and its word is
`w`, but for FENCE, whose ignored fields it does not keep (log 11). -/
structure Instr.Denotes (e : Extension) (ws : List Width) (i : Instr) (w : InsnWord) : Prop where
  ext : i.ext = e
  fits : ws.all (fun wd => i.fitsWidth wd) = true
  even : i.evenOffset = true
  word : i ≠ .fence → encode i = w

/-- What the row builds from a word that selects it denotes that word. -/
def Row.ReadsBack (r : Row) : Prop :=
  ∀ w : InsnWord, w &&& r.mask = r.pat → (r.build w).Denotes r.ext r.widths w

/-- Denoting goes over to an equal word. -/
theorem Instr.Denotes.trans {e : Extension} {ws : List Width} {i : Instr} {v w : InsnWord} (h : i.Denotes e ws v)
    (hv : v = w) : i.Denotes e ws w :=
  hv ▸ h

section

variable {e : Extension} {ws : List Width} {pat : InsnWord}

theorem rowR_readsBack {c : Reg → Reg → Reg → Instr}
    (hc : ∀ rd rs1 rs2, (c rd rs1 rs2).Denotes e ws (encR pat rd rs1 rs2)) : (rowR e ws pat c).ReadsBack :=
  fun _ hs => (hc ..).trans (encR_fields hs)

theorem rowI_readsBack {c : Reg → Reg → BitVec 12 → Instr}
    (hc : ∀ rd rs1 imm, (c rd rs1 imm).Denotes .I ws (encI pat rd rs1 imm)) : (rowI ws pat c).ReadsBack :=
  fun _ hs => (hc ..).trans (encI_fields hs)

theorem rowS_readsBack {c : Reg → Reg → BitVec 12 → Instr}
    (hc : ∀ rs1 rs2 imm, (c rs1 rs2 imm).Denotes .I ws (encS pat rs1 rs2 imm)) : (rowS ws pat c).ReadsBack :=
  fun _ hs => (hc ..).trans (encS_fields hs)

theorem rowB_readsBack {c : Reg → Reg → BitVec 13 → Instr}
    (hc : ∀ rs1 rs2 off, (!off.getLsbD 0) = true → (c rs1 rs2 off).Denotes .I ws (encB pat rs1 rs2 off)) :
    (rowB ws pat c).ReadsBack :=
  fun w hs => (hc _ _ _ (bitsB_even w)).trans (encB_fields hs)

theorem rowU_readsBack {c : Reg → BitVec 20 → Instr}
    (hc : ∀ rd imm20, (c rd imm20).Denotes .I ws (encU pat rd imm20)) : (rowU ws pat c).ReadsBack :=
  fun _ hs => (hc ..).trans (encU_fields hs)

theorem rowJ_readsBack {c : Reg → BitVec 21 → Instr}
    (hc : ∀ rd off, (!off.getLsbD 0) = true → (c rd off).Denotes .I ws (encJ pat rd off)) :
    (rowJ ws pat c).ReadsBack :=
  fun w hs => (hc _ _ (bitsJ_even w)).trans (encJ_fields hs)

theorem rowShiftW_readsBack {c : Reg → Reg → BitVec 5 → Instr}
    (hc : ∀ rd rs1 amt, (c rd rs1 amt).Denotes .I ws (encShift pat rd rs1 amt)) : (rowShiftW ws pat c).ReadsBack :=
  fun _ hs => (hc ..).trans (encShift_fields5 hs)

/-- At W = 32 the amount is five bits, so it is below 32 (R89). -/
theorem rowShift32_readsBack {c : Reg → Reg → BitVec 6 → Instr}
    (hc : ∀ rd rs1 amt, decide (amt.toNat < 32) = true →
      (c rd rs1 amt).Denotes .I [.w32] (encShift pat rd rs1 amt)) :
    (rowShift32 pat c).ReadsBack := by
  intro w hs
  have hlt : (zext (shamt5 w) : BitVec 6).toNat < 32 := by
    rw [zext, BitVec.toNat_setWidth]
    exact (Nat.mod_le _ _).trans_lt (shamt5 w).isLt
  exact (hc _ _ _ (decide_eq_true hlt)).trans ((encShift_zext ..).trans (encShift_fields5 hs))

theorem rowShift64_readsBack {c : Reg → Reg → BitVec 6 → Instr}
    (hc : ∀ rd rs1 amt, decide (amt.toNat < 64) = true →
      (c rd rs1 amt).Denotes .I [.w64] (encShift pat rd rs1 amt)) :
    (rowShift64 pat c).ReadsBack :=
  fun w hs => (hc _ _ _ (decide_eq_true (shamt6 w).isLt)).trans (encShift_fields6 hs)

end

/-! Row by row, the instruction's own equations: its extension, its widths, its offset, its word. -/

theorem rowsM_readBack : ∀ r ∈ rowsM, r.ReadsBack := by
  simp only [rowsM, List.forall_mem_cons, List.not_mem_nil, false_implies, implies_true, and_true]
  and_intros <;> exact rowR_readsBack fun _ _ _ => ⟨rfl, rfl, rfl, fun _ => rfl⟩

theorem rowsUpper_readBack : ∀ r ∈ rowsUpper, r.ReadsBack := by
  simp only [rowsUpper, List.forall_mem_cons, List.not_mem_nil, false_implies, implies_true, and_true]
  exact ⟨rowU_readsBack fun _ _ => ⟨rfl, rfl, rfl, fun _ => rfl⟩,
    rowU_readsBack fun _ _ => ⟨rfl, rfl, rfl, fun _ => rfl⟩,
    rowJ_readsBack fun _ _ h => ⟨rfl, rfl, h, fun _ => rfl⟩,
    rowI_readsBack fun _ _ _ => ⟨rfl, rfl, rfl, fun _ => rfl⟩⟩

theorem rowsBranch_readBack : ∀ r ∈ rowsBranch, r.ReadsBack := by
  simp only [rowsBranch, List.forall_mem_cons, List.not_mem_nil, false_implies, implies_true, and_true]
  and_intros <;> exact rowB_readsBack fun _ _ _ h => ⟨rfl, rfl, h, fun _ => rfl⟩

theorem rowsLoadStore_readBack : ∀ r ∈ rowsLoadStore, r.ReadsBack := by
  simp only [rowsLoadStore, List.forall_mem_cons, List.not_mem_nil, false_implies, implies_true, and_true]
  refine ⟨?_, ?_, ?_, ?_, ?_, ?_, ?_, ?stores⟩
  case stores => and_intros <;> exact rowS_readsBack fun _ _ _ => ⟨rfl, rfl, rfl, fun _ => rfl⟩
  all_goals exact rowI_readsBack fun _ _ _ => ⟨rfl, rfl, rfl, fun _ => rfl⟩

theorem rowsImm_readBack : ∀ r ∈ rowsImm, r.ReadsBack := by
  simp only [rowsImm, List.forall_mem_cons, List.not_mem_nil, false_implies, implies_true, and_true]
  refine ⟨?_, ?_, ?_, ?_, ?_, ?_, ?slli32, ?slli64, ?srli32, ?srli64, ?srai32, ?srai64⟩
  case slli32 | srli32 | srai32 =>
    exact rowShift32_readsBack fun _ _ _ h => ⟨rfl, (Bool.and_true _).trans h, rfl, fun _ => rfl⟩
  case slli64 | srli64 | srai64 =>
    exact rowShift64_readsBack fun _ _ _ h => ⟨rfl, (Bool.and_true _).trans h, rfl, fun _ => rfl⟩
  all_goals exact rowI_readsBack fun _ _ _ => ⟨rfl, rfl, rfl, fun _ => rfl⟩

theorem rowsReg_readBack : ∀ r ∈ rowsReg, r.ReadsBack := by
  simp only [rowsReg, List.forall_mem_cons, List.not_mem_nil, false_implies, implies_true, and_true]
  and_intros <;> exact rowR_readsBack fun _ _ _ => ⟨rfl, rfl, rfl, fun _ => rfl⟩

theorem rowsWord_readBack : ∀ r ∈ rowsWord, r.ReadsBack := by
  simp only [rowsWord, List.forall_mem_cons, List.not_mem_nil, false_implies, implies_true, and_true]
  refine ⟨?addiw, ?slliw, ?srliw, ?sraiw, ?_, ?_, ?_, ?_, ?_⟩
  case addiw => exact rowI_readsBack fun _ _ _ => ⟨rfl, rfl, rfl, fun _ => rfl⟩
  case slliw | srliw | sraiw => exact rowShiftW_readsBack fun _ _ _ => ⟨rfl, rfl, rfl, fun _ => rfl⟩
  all_goals exact rowR_readsBack fun _ _ _ => ⟨rfl, rfl, rfl, fun _ => rfl⟩

/-- FENCE is excepted; ECALL and EBREAK are one word each, for their masks are all ones (R103). -/
theorem rowsSystem_readBack : ∀ r ∈ rowsSystem, r.ReadsBack := by
  simp only [rowsSystem, List.forall_mem_cons, List.not_mem_nil, false_implies, implies_true, and_true]
  refine ⟨fun w _ => ⟨rfl, rfl, rfl, fun h => absurd rfl h⟩, ?_, ?_⟩
  all_goals exact fun w hs => ⟨rfl, rfl, rfl, fun _ => hs.symm.trans (and_eq_self_of_cover (by decide) w)⟩

theorem opcodeMap_readsBack : ∀ r ∈ opcodeMap, r.ReadsBack := by
  simp only [opcodeMap, List.forall_mem_append]
  exact ⟨⟨⟨⟨⟨⟨⟨rowsM_readBack, rowsUpper_readBack⟩, rowsBranch_readBack⟩, rowsLoadStore_readBack⟩, rowsImm_readBack⟩,
    rowsReg_readBack⟩, rowsWord_readBack⟩, rowsSystem_readBack⟩

/-- Settles O34: the row that read the word reads it back. -/
theorem encodeOfDecodeIsTheWord : Obligations.EncodeOfDecodeIsTheWord := by
  intro wd exts w i hd
  obtain ⟨r, hr, hext, hwd, hs, rfl⟩ := decode_eq_some hd
  have hden : (r.build w).Denotes r.ext r.widths w := opcodeMap_readsBack r hr w hs
  have hfits : (r.build w).fitsWidth wd = true := List.all_eq_true.1 hden.fits wd hwd
  exact ⟨Instr.wellFormed_iff.2 ⟨hden.ext ▸ hext, hfits, hden.even⟩, hden.word⟩

/-! ### The signature of extension M (R94) -/

/-- The row of extension M with funct3 `f` (R94). -/
def rowM (f : BitVec 3) : Row :=
  rowR .M bothWidths (place 0 0b0110011#7 ||| place 12 f ||| place 25 0b0000001#7) (Spec.operationM f)

theorem rowsM_eq_map_rowM : rowsM = [0, 1, 2, 3, 4, 5, 6, 7].map rowM := rfl

theorem rowM_mem_opcodeMap (f : BitVec 3) : rowM f ∈ opcodeMap := by
  have hf : ∀ f : BitVec 3, f ∈ [0#3, 1, 2, 3, 4, 5, 6, 7] := by decide
  have hmem : rowM f ∈ rowsM := rowsM_eq_map_rowM ▸ List.mem_map_of_mem (hf f)
  simp only [opcodeMap, List.mem_append, hmem, true_or]

/-- What a row of format R looks at is the opcode, funct3 and funct7 (R83). -/
theorem and_maskR (w : InsnWord) :
    w &&& 0xfe00707f = place 0 (opcodeF w) ||| place 12 (funct3F w) ||| place 25 (funct7F w) := by
  simp only [opcodeF, funct3F, funct7F, place_field, ← BitVec.and_or_distrib_left]
  exact congrArg (w &&& ·) (by decide)

theorem funct7F_mask_of_M : ∀ r ∈ opcodeMap, r.ext = .M → funct7F r.mask = BitVec.allOnes 7 := by
  decide

/-- Settles O35: with the signature the word selects the row of its funct3; without it no row of M can take the word. -/
theorem extensionMRecognisesItsSignature : Obligations.ExtensionMRecognisesItsSignature := by
  intro wd w
  split
  next h =>
    obtain ⟨hop, h7⟩ := h
    have hs : w &&& 0xfe00707f = (rowM (funct3F w)).pat := by
      rw [and_maskR, show opcodeF w = _ from hop, show funct7F w = _ from h7]
      rfl
    exact decodeExt_of_selects (rowM_mem_opcodeMap _) (Laws.Format.mem_both wd) (beq_iff_eq.2 hs)
  next h =>
    rw [decodeExt_eq_none_iff]
    intro r hr hext _
    rw [Row.selects, beq_eq_false_iff_ne]
    intro hs
    obtain ⟨hop, h7⟩ := rowsM_signature r hr hext
    exact h ⟨(opcodeF_eq_of_selects hr hs).trans hop, (field_eq_of_mask hs (funct7F_mask_of_M r hr hext)).trans h7⟩

/-! ### Disjointness and priority (R93, R104) -/

/-- Settles O36: the model's own check of the map. -/
theorem opcodeMapRowsAreDisjoint : Obligations.OpcodeMapRowsAreDisjoint :=
  opcodeMap_disjoint

/-- Settles O37: what the aggregate decoder answers does not speak of the order, and two answers have one extension. -/
theorem decoderPriorityIsImmaterial : Obligations.DecoderPriorityIsImmaterial := by
  refine fun wd w => ⟨Option.ext fun i => ?_, ?_⟩
  · simp only [decode_eq_some_iff, List.mem_pair, or_comm]
  · cases hI : decodeExt wd .I w with
    | none => exact .inl rfl
    | some i =>
      cases hM : decodeExt wd .M w with
      | none => exact .inr rfl
      | some j => exact nomatch (decodeExt_unique hI hM).1

/-! ### Illegal words (R80, R108, R112) -/

/-- The two SYSTEM rows fix every bit (R103, R108). -/
theorem mask_pat_of_system_row : ∀ r ∈ opcodeMap, opcodeF r.pat = 0b1110011 →
    r.mask = BitVec.allOnes 32 ∧ (r.pat = 0x00000073 ∨ r.pat = 0x00100073) := by
  decide

/-- Settles O38: a word with the SYSTEM opcode can select a SYSTEM row only, and those rows are one word each. -/
theorem systemWordsAreEcallAndEbreakOnly : Obligations.SystemWordsAreEcallAndEbreakOnly := by
  intro wd exts w hop hecall hebreak
  refine decode_eq_none (fun r hr hs => ?_) wd exts
  obtain ⟨hmask, hpat⟩ := mask_pat_of_system_row r hr ((opcodeF_eq_of_selects hr hs).symm.trans hop)
  rw [hmask, BitVec.and_allOnes] at hs
  exact hpat.elim (fun h => hecall (hs.trans h)) fun h => hebreak (hs.trans h)

/-- Every row fixes the two low bits to 0b11 (R80). -/
theorem low_bits_of_row : ∀ r ∈ opcodeMap, field r.mask 0 2 = BitVec.allOnes 2 ∧ field r.pat 0 2 = 0b11 := by
  decide

/-- No row has the all-ones opcode (R112). -/
theorem opcodeF_pat_ne_allOnes : ∀ r ∈ opcodeMap, opcodeF r.pat ≠ BitVec.allOnes 7 := by
  decide

/-- Settles O39: a word that selects a row has the row's low bits and the row's opcode. -/
theorem wordsOutsideTheOpcodeSpaceAreIllegal : Obligations.WordsOutsideTheOpcodeSpaceAreIllegal := by
  intro wd exts
  have hlow : ∀ w : InsnWord, w.extractLsb' 0 2 ≠ 0b11#2 → decode wd exts w = none := by
    refine fun w hw => decode_eq_none (fun r hr hs => hw ?_) wd exts
    obtain ⟨hmask, hpat⟩ := low_bits_of_row r hr
    exact (field_eq_of_mask hs hmask).trans hpat
  refine ⟨hlow, hlow _ (by decide), decode_eq_none (fun r hr hs => ?_) wd exts⟩
  exact opcodeF_pat_ne_allOnes r hr (opcodeF_eq_of_selects hr hs).symm

theorem decode_of_encode_eq {wd : Width} {exts : List Extension} {i : Instr} {w : InsnWord} (hw : encode i = w)
    (hwf : i.wellFormed wd exts = true) : decode wd exts w = some i :=
  hw ▸ decodeOfEncodeIsTheInstruction wd exts i hwf

/-- Settles O40: the words that read are those of well-formed instructions; SRAI by 63 selects no row at W = 32. -/
theorem sampleWordsDecode : Obligations.SampleWordsDecode := by
  refine ⟨?_, ?_, ?_, ?_, ?_, ?_, ?_, ?illegal, ?_⟩
  case illegal => decide
  all_goals exact decode_of_encode_eq (by decide) (by decide)

end Sys2Proof

namespace Sys2Proof.Machine

/-! ### Instructions of the other width (R99, R102, R109, R111) -/

theorem State.whenLegal_of_not_fits {s : State} {i : Instr} (r : Result) (h : i.fitsWidth s.cfg.width = false) :
    s.whenLegal i r = .fault (.decodeError (encode i)) := by
  simp [State.whenLegal, h, raise]

/-- Settles O32: the meanings of the width-bound instructions ask whether they are legal; every other instruction exists
at both widths. -/
theorem instructionOfTheOtherWidthIsIllegal : Obligations.InstructionOfTheOtherWidthIsIllegal := by
  intro i s h
  cases i
  case lwu | ld | sd | slli | srli | srai | addiw | slliw | srliw | sraiw | addw | subw | sllw | srlw | sraw =>
    exact State.whenLegal_of_not_fits _ h
  all_goals exact Bool.noConfusion h

end Sys2Proof.Machine
end

section
/-! SUPPORT. Proofs of the family 40_dispatch.md: the stages of the step in the spec's terms, the bound of a run, what
an executed instruction can change, what its one data access decides. -/

namespace Sys2Proof

/-- A byte appended below a value is its least significant digit to the base 256. -/
theorem toNat_append_byte {n : Nat} (x : BitVec n) (b : Byte) : (x ++ b).toNat = b.toNat + 256 * x.toNat := by
  rw [BitVec.toNat_append, ← Nat.shiftLeft_add_eq_or_of_lt b.isLt, Nat.shiftLeft_eq]
  omega

theorem Config.one_le_cost (c : Config) (i : Instr) : 1 ≤ c.cost i :=
  Nat.le_add_right 1 _

end Sys2Proof

namespace Sys2Proof.Machine

open Sys2Proof.Spec

/-! ### The fetched word (40_dispatch.md R121) -/

/-- Four bytes read little-endian are the word with the byte at the highest address on top (20_memory.md R53). -/
theorem Memory.ofNat_readLE_four (m : Memory) (a : Nat) :
    BitVec.ofNat 32 (m.readLE a 4) = m.read (a + 3) ++ m.read (a + 2) ++ m.read (a + 1) ++ m.read a := by
  have hlt : m.readLE a 4 < 2 ^ 32 := m.readLE_lt 4 a
  apply BitVec.eq_of_toNat_eq
  rw [BitVec.toNat_ofNat, Nat.mod_eq_of_lt hlt]
  simp only [toNat_append_byte, Memory.readLE]
  rfl

/-! ### The stages of the step in the spec's terms (40_dispatch.md R120) -/

section

variable {s : State} {i : Instr}

theorem State.fetch_of_fetchable (h : Fetchable s) : s.fetch = .ok (wordAtPc s) := by
  rw [State.fetch_inBounds h, Memory.ofNat_readLE_four, wordAtPc]

theorem State.fetch_of_not_fetchable (h : ¬ Fetchable s) :
    s.fetch = .error (.memoryFault s.arch.pc.toNat 4 .fetch) := by
  have hread : s.memRead s.pc 4 .fetch = .error (.memoryFault s.arch.pc.toNat 4 .fetch) :=
    State.memRead_outOfBounds _ (Nat.lt_of_not_le h)
  simp only [State.fetch, hread]

theorem State.fetch_eq_ok {w : InsnWord} (h : s.fetch = .ok w) : Fetchable s ∧ wordAtPc s = w := by
  by_cases hf : Fetchable s
  · rw [State.fetch_of_fetchable hf] at h
    exact ⟨hf, Except.ok.inj h⟩
  · rw [State.fetch_of_not_fetchable hf] at h
    exact nomatch h

theorem State.decoded_eq_ok_iff {w : InsnWord} :
    s.decoded w = .ok i ↔ decode s.cfg.width s.cfg.extensions w = some i := by
  unfold State.decoded
  cases decode s.cfg.width s.cfg.extensions w <;> simp

/-- The fetch ends the step (R121). -/
theorem step_of_not_fetchable (h : ¬ Fetchable s) : step s = .fault (.memoryFault s.arch.pc.toNat 4 .fetch) := by
  simp only [step, State.fetch_of_not_fetchable h, raise]

/-- The decoding ends the step (R122). -/
theorem step_of_illegal (hf : Fetchable s) (hd : decode s.cfg.width s.cfg.extensions (wordAtPc s) = none) :
    step s = .fault (.decodeError (wordAtPc s)) := by
  simp only [step, State.fetch_of_fetchable hf, State.decoded, hd, raise]

/-- Past the decoding the budget check decides (R126). -/
theorem step_of_decodesTo (hf : Fetchable s) (hd : DecodesTo s i) :
    step s = if s.overBudget i then .fault .cycleBudgetExceeded else Result.charged i (exec i s) := by
  simp only [step, State.fetch_of_fetchable hf, State.decoded_eq_ok_iff.2 hd, raise]

theorem State.overBudget_eq_true_iff : s.overBudget i = true ↔ ¬ Fits s i := by
  simp [State.overBudget, Fits]

/-- The budget check ends the step (R126). -/
theorem step_of_not_fits (hf : Fetchable s) (hd : DecodesTo s i) (hb : ¬ Fits s i) :
    step s = .fault .cycleBudgetExceeded := by
  rw [step_of_decodesTo hf hd, if_pos (State.overBudget_eq_true_iff.2 hb)]

/-- No stage ends the step before the execution (R123, R127). -/
theorem step_of_fits (hf : Fetchable s) (hd : DecodesTo s i) (hb : Fits s i) :
    step s = Result.charged i (exec i s) := by
  rw [step_of_decodesTo hf hd, State.overBudget_eq_false_iff.2 hb, if_neg Bool.false_ne_true]

/-- `step_next` in the spec's terms. -/
theorem step_next_of_stages {t : State} (h : step s = .next t) :
    ∃ i e, Fetchable s ∧ DecodesTo s i ∧ Fits s i ∧ EffectShape i s e ∧ t = (s.commit e).charge i := by
  obtain ⟨w, i, e, hf, hd, hb, he, rfl⟩ := step_next h
  obtain ⟨hfetch, rfl⟩ := State.fetch_eq_ok hf
  exact ⟨i, e, hfetch, State.decoded_eq_ok_iff.1 hd, State.overBudget_eq_false_iff.1 hb, he, rfl⟩

/-! ### The outcome that reports a step (00_scope.md R15) -/

theorem outcome_of_decodeError {w : InsnWord} (h : step s = .fault (.decodeError w)) :
    outcome s = .fault (.decodeError w) s := by
  simp only [outcome, h]

theorem outcome_of_memoryFault {a n : Nat} {k : AccessKind} (h : step s = .fault (.memoryFault a n k)) :
    outcome s = .fault (.memoryFault a n k) s := by
  simp only [outcome, h]

theorem outcome_of_cycleBudgetExceeded (h : step s = .fault .cycleBudgetExceeded) : outcome s = .halt s := by
  simp only [outcome, h]

theorem step_of_outcome_next {t : State} (h : outcome s = .next t) : step s = .next t := by
  unfold outcome at h
  split at h
  next hstep =>
    split at h
    · rw [hstep, StepOutcome.next.inj h]
    · exact nomatch h
  all_goals exact nomatch h

end

/-! ### Charging (40_dispatch.md R126, R127) -/

theorem State.toNat_charge_commit_cycles {s : State} {i : Instr} (hb : Fits s i) (e : Effects s.W) :
    ((s.commit e).charge i).arch.cycles.toNat = s.arch.cycles.toNat + s.cfg.cost i := by
  have hcommit : (s.commit e).overBudget i = false := by
    rw [State.commit_overBudget, State.overBudget_eq_false_iff.2 hb]
  rw [State.toNat_charge_cycles hcommit, State.commit_arch, Arch.commit_cycles, State.commit_cfg]

/-- Settles O45: the charge of an instruction that fits does not wrap, and fitting is the bound. -/
theorem completedInstructionIsCharged : Obligations.CompletedInstructionIsCharged := by
  intro s t h
  obtain ⟨i, e, -, hd, hb, -, rfl⟩ := step_next_of_stages h
  have hcycles := State.toNat_charge_commit_cycles hb e
  exact ⟨i, hd, s.cfg.one_le_cost i, hcycles, hcycles ▸ hb⟩

/-! ### The run (40_dispatch.md R131) -/

theorem step_keeps_budget {s t : State} (h : step s = .next t) : t.arch.budget = s.arch.budget := by
  obtain ⟨i, e, -, -, -, -, rfl⟩ := step_next_of_stages h
  exact s.arch.commit_budget e

/-- A run of more steps than the budget has cycles left ends: each `Next` uses up one cycle of it at least. -/
theorem run_ended_of_budget_lt (n : Nat) : ∀ s : State, s.arch.cycles.toNat ≤ s.arch.budget.toNat →
    s.arch.budget.toNat < s.arch.cycles.toNat + n → (run n s).ended = true := by
  induction n with
  | zero => intro s hle hlt; omega
  | succ n ih =>
    intro s hle hlt
    unfold run
    split
    next t ho =>
      have hstep : step s = .next t := step_of_outcome_next ho
      obtain ⟨i, -, hcost, hcycles, hbound⟩ := completedInstructionIsCharged s t hstep
      have hbudget : t.arch.budget = s.arch.budget := step_keeps_budget hstep
      exact ih t (hbudget ▸ hbound) (by rw [hbudget]; omega)
    all_goals rfl

/-- Settles O54: one step more than the cycles that are left. -/
theorem budgetBoundsEveryRun : Obligations.BudgetBoundsEveryRun :=
  fun s h => run_ended_of_budget_lt _ s h (by omega)

/-! ### What executing an instruction can change (40_dispatch.md R120, R124) -/

theorem EffectShape.nextPc_eq_none {i : Instr} {s : State} {e : Effects s.W} (he : EffectShape i s e)
    (hi : i.transfersControl = false) : e.nextPc = none := by
  by_contra h
  exact Bool.false_ne_true (hi.symm.trans (he.pc h))

theorem EffectShape.mem_eq_none {i : Instr} {s : State} {e : Effects s.W} (he : EffectShape i s e)
    (hi : i.storeSize = none) : e.mem = none :=
  Option.map_eq_none_iff.1 (he.map_size_mem.trans hi)

/-- Settles O26: only a control transfer's effects hold an explicit pc. -/
theorem onlyControlTransfersSetThePc : Obligations.OnlyControlTransfersSetThePc := by
  intro i s c h hi
  obtain ⟨e, he, hc⟩ := exec_next h
  obtain rfl : c = s.arch.commit e := by cases hc; rfl
  rw [Arch.commit_pc, he.nextPc_eq_none hi, Option.getD_none]

/-- What a register reads after a commit (10_state.md R22). -/
theorem Arch.x_commit {w : Nat} (c : Arch w) (e : Effects w) (q : Reg) : (c.commit e).x q = regsAfter c e.reg q := by
  rw [Arch.commit_x]
  cases e.reg with
  | none => rfl
  | some p => exact c.x_setX p.1 q p.2

/-- Settles O27: the one register write goes to `rd`, and a write to register 0 is none. -/
theorem onlyTheDestinationRegisterChanges : Obligations.OnlyTheDestinationRegisterChanges := by
  intro i s c h
  obtain ⟨e, he, hc⟩ := exec_next h
  obtain rfl : c = s.arch.commit e := by cases hc; rfl
  have hother : ∀ q, q ≠ i.dest → (s.arch.commit e).x q = s.arch.x q := by
    intro q hq
    rw [Arch.x_commit]
    rcases hreg : e.reg with _ | ⟨rd, v⟩
    · rfl
    · obtain rfl : rd = i.dest := he.reg rd v hreg
      by_cases hzero : q = 0
      · subst hzero
        rfl
      · rw [regsAfter, if_neg hzero, if_neg hq]
  refine ⟨Arch.x_zero _, hother, fun hdest q => ?_⟩
  by_cases hq : q = i.dest
  · rw [hq, hdest]
    exact (Arch.x_zero _).trans (Arch.x_zero _).symm
  · exact hother q hq

/-! ### What the one data access decides (40_dispatch.md R120, R125; 20_memory.md R51) -/

/-- The result is decided by the data access alone: it completes unless the access is out of bounds, and then it is the
MemoryFault of that access. -/
structure DecidedByAccess (s : State) (access : Option (Nat × Nat × AccessKind)) (r : Result) : Prop where
  completes : (∀ a n k, access = some (a, n, k) → a + n ≤ s.cfg.memSize) → ∃ t, r = .next t
  faults : ∀ a n k, access = some (a, n, k) → s.cfg.memSize < a + n → r = .fault (.memoryFault a n k)

section

variable {s : State} {i : Instr}

theorem DecidedByAccess.finish (e : Effects s.W) : DecidedByAccess s none (s.finish e) :=
  ⟨fun _ => ⟨_, rfl⟩, fun _ _ _ h => nomatch h⟩

theorem DecidedByAccess.load {rd rs1 : Reg} {imm : BitVec 12} {n : Nat} {ext : Nat → BitVec s.W} :
    DecidedByAccess s (some (address s rs1 imm, n, .load)) (s.load rd rs1 imm n ext) := by
  rw [← State.toNat_effAddr]
  refine ⟨fun h => ⟨_, State.load_inBounds (h _ _ _ rfl)⟩, fun a m k h hout => ?_⟩
  cases h
  exact State.load_outOfBounds hout

theorem DecidedByAccess.store {rs1 rs2 : Reg} {imm : BitVec 12} {n : Nat} :
    DecidedByAccess s (some (address s rs1 imm, n, .store)) (s.store rs1 rs2 imm n) := by
  rw [← State.toNat_effAddr]
  refine ⟨fun h => ⟨_, State.store_inBounds (h _ _ _ rfl)⟩, fun a m k h hout => ?_⟩
  cases h
  exact State.store_outOfBounds hout

theorem DecidedByAccess.whenLegal {access : Option (Nat × Nat × AccessKind)} {r : Result}
    (hi : i.fitsWidth s.cfg.width = true) (h : DecidedByAccess s access r) :
    DecidedByAccess s access (s.whenLegal i r) :=
  (State.whenLegal_of_fits r hi).symm ▸ h

/-- Executing an instruction that exists at the width is decided by its data access alone. -/
theorem exec_decidedByAccess (hi : i.fitsWidth s.cfg.width = true) :
    DecidedByAccess s (dataAccess s i) (exec i s) := by
  cases i
  case lb | lh | lw | lbu | lhu => exact .load
  case lwu | ld => exact .whenLegal hi .load
  case sb | sh | sw => exact .store
  case sd => exact .whenLegal hi .store
  case slli | srli | srai | addiw | slliw | srliw | sraiw | addw | subw | sllw | srlw | sraw =>
    exact .whenLegal hi (.finish _)
  all_goals exact .finish _

/-- A decoded instruction exists at the width (30_encoding.md R99, R102, R109). -/
theorem fitsWidth_of_decodesTo (h : DecodesTo s i) : i.fitsWidth s.cfg.width = true := by
  obtain ⟨hwf, -⟩ := encodeOfDecodeIsTheWord _ _ _ _ h
  exact (Instr.wellFormed_iff.1 hwf).2.1

theorem exec_of_unhindered (h : Unhindered s i) : ∃ t, exec i s = .next t :=
  have ⟨_, hd, _, haccess⟩ := h
  (exec_decidedByAccess (fitsWidth_of_decodesTo hd)).completes haccess

theorem step_of_access_outOfBounds {a n : Nat} {k : AccessKind} (hf : Fetchable s) (hd : DecodesTo s i) (hb : Fits s i)
    (haccess : dataAccess s i = some (a, n, k)) (hout : s.cfg.memSize < a + n) :
    step s = .fault (.memoryFault a n k) := by
  have hexec := (exec_decidedByAccess (fitsWidth_of_decodesTo hd)).faults a n k haccess hout
  rw [step_of_fits hf hd hb, hexec, Result.charged]

end

/-- Settles O47: the stages in their order, the last of them decided by the data access. -/
theorem noPartialEffects : Obligations.NoPartialEffects := by
  refine fun s => ⟨fun i hi => ?unhindered, fun hno => ?hindered, fun i a n k hf hd hb haccess hout =>
    outcome_of_memoryFault (step_of_access_outOfBounds hf hd hb haccess hout)⟩
  case unhindered =>
    obtain ⟨t, ht⟩ := exec_of_unhindered hi
    obtain ⟨hf, hd, hb, -⟩ := hi
    exact ⟨t, ht, by rw [step_of_fits hf hd hb, ht, Result.charged]⟩
  case hindered =>
    by_cases hf : Fetchable s
    case neg => exact .inr (.inr ⟨_, _, _, Nat.lt_of_not_le hf, outcome_of_memoryFault (step_of_not_fetchable hf)⟩)
    cases hd : decode s.cfg.width s.cfg.extensions (wordAtPc s) with
    | none => exact .inr (.inl ⟨_, outcome_of_decodeError (step_of_illegal hf hd)⟩)
    | some i =>
      by_cases hb : Fits s i
      case neg => exact .inl (outcome_of_cycleBudgetExceeded (step_of_not_fits hf hd hb))
      have hout : ∃ a n k, dataAccess s i = some (a, n, k) ∧ s.cfg.memSize < a + n := by
        by_contra hin
        push Not at hin
        exact hno i ⟨hf, hd, hb, hin⟩
      obtain ⟨a, n, k, haccess, hlt⟩ := hout
      exact .inr (.inr ⟨a, n, k, hlt, outcome_of_memoryFault (step_of_access_outOfBounds hf hd hb haccess hlt)⟩)

/-! ### Extension M (40_dispatch.md R130) -/

/-- What the classes of the spec's whole-machine rules say of an instruction of extension M. -/
theorem classes_of_ext_M {i : Instr} (s : State) (h : i.ext = .M) :
    dataAccess s i = none ∧ i.storeSize = none ∧ i.transfersControl = false ∧ signalOf i = none := by
  cases i
  case mul | mulh | mulhsu | mulhu | div | divu | rem | remu => exact ⟨rfl, rfl, rfl, rfl⟩
  all_goals exact nomatch h

/-- Settles O5: without a data access nothing hinders the instruction, and its effects are a register write at most. -/
theorem extensionMCompletesInEveryState : Obligations.ExtensionMCompletesInEveryState := by
  intro s i hf hd hb hM
  obtain ⟨haccess, hstore, htransfer, hsignal⟩ := classes_of_ext_M s hM
  obtain ⟨t, ht⟩ := exec_of_unhindered ⟨hf, hd, hb, fun _ _ _ h => nomatch haccess.symm.trans h⟩
  obtain ⟨e, he, rfl⟩ := exec_next ht
  have hpc : e.nextPc = none := he.nextPc_eq_none htransfer
  have hmem : e.mem = none := he.mem_eq_none hstore
  refine ⟨((s.commit e).charge i).arch, ?_, ?_, State.toNat_charge_commit_cycles hb e, fun a => ?_, ?_, ?_⟩
  · rw [step_of_fits hf hd hb, ht]
    rfl
  · simp [hpc]
  · simp [hmem]
  · simp [he.signal, hsignal]
  · simp [hmem]

/-! ### Dispatch is total (40_dispatch.md R123) -/

theorem exec_ne_refused (i : Instr) (s : State) (r : Refusal) : exec i s ≠ .refused r := by
  intro h
  have hshape : ExecShape i s (.refused r) := h ▸ exec_shape i s
  cases hshape

theorem Result.charged_ne_refused {i : Instr} {x : Result} {r : Refusal} (h : x ≠ .refused r) :
    Result.charged i x ≠ .refused r := by
  cases x with
  | next | fault => exact nofun
  | refused q => exact h

/-- Settles O49: the stages before the execution end in a fault, and no meaning refuses. -/
theorem noStepIsRefused : Obligations.NoStepIsRefused := by
  intro s r
  rcases step_cases s with ⟨f, -, hs⟩ | ⟨w, f, -, -, hs⟩ | ⟨w, i, -, -, -, hs⟩ | ⟨w, i, -, -, -, hs⟩
  case inr.inr.inr => exact hs ▸ Result.charged_ne_refused (exec_ne_refused i s r)
  all_goals exact hs ▸ nofun

/-! ### The stages one by one -/

/-- Settles O41: a fitting instruction's step is its execution, and charging touches a next state only. -/
theorem stepRunsTheDecodedInstruction : Obligations.StepRunsTheDecodedInstruction := by
  intro s i hf hd hb
  rw [step_of_fits hf hd hb]
  exact ⟨fun t ht => by rw [ht]; rfl, fun f hx => by rw [hx]; rfl⟩

/-- Settles O42: the bounds test of the fetch and the bytes it reads. -/
theorem fetchFaultsExactlyOutOfBounds : Obligations.FetchFaultsExactlyOutOfBounds :=
  fun _ => ⟨fun h => step_of_not_fetchable (Nat.not_le.2 h), State.fetch_of_fetchable⟩

/-- Settles O43: the decoding ends the step, and a fault gives the state back. -/
theorem illegalWordIsADecodeError : Obligations.IllegalWordIsADecodeError := by
  intro s hf hd
  have hstep := step_of_illegal hf hd
  exact ⟨hstep, outcome_of_decodeError hstep⟩

/-- Settles O44: the two sides of the budget check. -/
theorem budgetHaltsBeforeTheInstruction : Obligations.BudgetHaltsBeforeTheInstruction := by
  refine fun s i hf hd => ⟨s.cfg.one_le_cost i, fun hover => ?_, step_of_fits hf hd⟩
  have hstep := step_of_not_fits hf hd (Nat.not_le.2 hover)
  exact ⟨hstep, outcome_of_cycleBudgetExceeded hstep⟩

end Sys2Proof.Machine
end

section
/-! SUPPORT. Proofs of the family 41_m_arith.md: the multiplications and divisions as instructions of format R, the
exact product from its two parts, the dividend from quotient and remainder. -/

namespace Sys2Proof

theorem Width.bits_pos (wd : Width) : 0 < wd.bits := by
  cases wd <;> decide

end Sys2Proof

namespace Sys2Proof.Machine

open Sys2Proof.Spec

/-! ### Register-register instructions (30_encoding.md R83, R94; 41_m_arith.md R140) -/

/-- A word with the fixed bits of a row of format R decodes to what the row builds from its fields. -/
theorem encoded_of_rowR {e : Extension} {ws : List Width} {pat : InsnWord} {c : Reg → Reg → Reg → Instr}
    (hrow : rowR e ws pat c ∈ opcodeMap) : Encoded e ws 0xfe00707f pat (operandsR c) :=
  fun _ hwd _ he _ hs => decode_of_selects hrow hwd he hs

/-- The shape `x[rd] <- v` changes the one register and the pc (R140, 42_base_alu.md R190). -/
theorem State.writes_writesReg (s : State) (rd : Reg) (v : BitVec s.W) : WritesReg s (s.writes rd v) rd v :=
  ⟨_, rfl, {
    regs := Arch.x_commit s.arch _
    pc := rfl
    mem := fun _ => rfl
    cycles := s.arch.commit_cycles _
    budget := s.arch.commit_budget _
    signal := rfl
    storeEvent := rfl }⟩

/-- A row of format R and a meaning of the shape `x[rd] <- f(x[rs1], x[rs2])` make a register-register instruction. -/
theorem regReg_of_rowR {e : Extension} {ws : List Width} {pat : InsnWord} {c : Reg → Reg → Reg → Instr}
    {f : ∀ s : State, BitVec s.W → BitVec s.W → BitVec s.W} (hrow : rowR e ws pat c ∈ opcodeMap)
    (hexec : ∀ (s : State) (rd rs1 rs2 : Reg), s.cfg.width ∈ ws →
      exec (c rd rs1 rs2) s = s.writes rd (f s (s.x rs1) (s.x rs2))) : RegReg e ws pat c f :=
  ⟨encoded_of_rowR hrow, fun s rd rs1 rs2 hwd => hexec s rd rs1 rs2 hwd ▸ s.writes_writesReg rd _⟩

/-- Every row of extension M stands in the map and applies at both widths (30_encoding.md R94). -/
theorem regReg_of_rowsM {pat : InsnWord} {c : Reg → Reg → Reg → Instr}
    {f : ∀ s : State, BitVec s.W → BitVec s.W → BitVec s.W} (hrow : rowR .M bothWidths pat c ∈ rowsM)
    (hexec : ∀ (s : State) (rd rs1 rs2 : Reg), exec (c rd rs1 rs2) s = s.writes rd (f s (s.x rs1) (s.x rs2))) :
    RegReg .M [.w32, .w64] pat c f :=
  have hmap : rowR .M bothWidths pat c ∈ opcodeMap := by simp only [opcodeMap, List.mem_append, hrow, true_or]
  regReg_of_rowR hmap fun s rd rs1 rs2 _ => hexec s rd rs1 rs2

/-! ### The products (41_m_arith.md R141 to R144, R149) -/

section

variable {w : Nat} (a b : BitVec w)

theorem mulHighSS_eq : mulHighSS a b = BitVec.ofInt w (a.toInt * b.toInt / 2 ^ w) := by
  rw [mulHighSS, Nat.cast_pow, Nat.cast_ofNat]

theorem mulHighSU_eq : mulHighSU a b = BitVec.ofInt w (a.toInt * (b.toNat : Int) / 2 ^ w) := by
  rw [mulHighSU, Nat.cast_pow, Nat.cast_ofNat]

/-- Modulo 2^W the product does not depend on how the operands are read. -/
theorem mulLow_eq_mul : mulLow a b = a * b := by
  rw [mulLow, BitVec.ofInt_mul, BitVec.ofInt_toInt, BitVec.ofInt_toInt]

theorem mulLow_eq_ofInt_toInt_mul_toNat : mulLow a b = BitVec.ofInt w (a.toInt * (b.toNat : Int)) := by
  rw [mulLow_eq_mul, BitVec.ofInt_mul, BitVec.ofInt_toInt, BitVec.ofInt_natCast, BitVec.ofNat_toNat, BitVec.setWidth_eq]

theorem toNat_mulHighUU : (mulHighUU a b).toNat = a.toNat * b.toNat / 2 ^ w := by
  have hlt : a.toNat * b.toNat / 2 ^ w < 2 ^ w :=
    Nat.div_lt_of_lt_mul (Nat.mul_lt_mul'' a.isLt b.isLt)
  rw [mulHighUU, BitVec.toNat_ofNat, Nat.mod_eq_of_lt hlt]

theorem abs_toInt_lt : |b.toInt| < 2 ^ w := by
  have hlo : -2 ^ w ≤ 2 * b.toInt := BitVec.le_two_mul_toInt
  have hhi : 2 * b.toInt < 2 ^ w := BitVec.two_mul_toInt_lt
  have hpos : (0 : Int) < 2 ^ w := by positivity
  exact abs_lt.2 ⟨by omega, by omega⟩

theorem abs_toNat_lt : |(b.toNat : Int)| < 2 ^ w := by
  rw [Nat.abs_cast]
  exact_mod_cast b.isLt

/-- A signed operand times one of magnitude below 2^W has a high part in the signed range. -/
theorem abs_toInt_mul_lt {t : Int} (ht : |t| < 2 ^ w) : |a.toInt * t| < 2 ^ (w - 1) * 2 ^ w := by
  have ha : |a.toInt| ≤ 2 ^ (w - 1) := abs_le.2 ⟨a.le_toInt, BitVec.toInt_lt.le⟩
  rw [abs_mul]
  exact mul_lt_mul' ha ht (abs_nonneg t) (by positivity)

/-- Floor and remainder by 2^W, the floor read as signed, make up a number whose floor is in the signed range. -/
theorem toInt_high_add_toNat_low (hw : 0 < w) {p : Int} (hp : |p| < 2 ^ (w - 1) * 2 ^ w) :
    (BitVec.ofInt w (p / 2 ^ w)).toInt * 2 ^ w + ((BitVec.ofInt w p).toNat : Int) = p := by
  have hpos : (0 : Int) < 2 ^ w := by positivity
  obtain ⟨hlo, hhi⟩ := abs_lt.1 hp
  have hhigh : (BitVec.ofInt w (p / 2 ^ w)).toInt = p / 2 ^ w :=
    BitVec.toInt_ofInt_eq_self hw ((Int.le_ediv_iff_mul_le hpos).2 (by rw [neg_mul]; exact hlo.le))
      (Int.ediv_lt_of_lt_mul hpos hhi)
  have hlow : ((BitVec.ofInt w p).toNat : Int) = p % 2 ^ w := by
    rw [BitVec.toNat_ofInt, Nat.cast_pow, Nat.cast_ofNat, Int.toNat_of_nonneg (Int.emod_nonneg p hpos.ne')]
  rw [hhigh, hlow, Int.ediv_mul_add_emod]

end

/-- Settles O1: the four rows, and the meanings with the power of two read as an integer. -/
theorem multiplyInstructionsGiveTheirPartOfTheProduct :
    Obligations.MultiplyInstructionsGiveTheirPartOfTheProduct := by
  refine ⟨regReg_of_rowsM ?_ fun s rd rs1 rs2 => ?mul, regReg_of_rowsM ?_ fun s rd rs1 rs2 => ?mulh,
    regReg_of_rowsM ?_ fun s rd rs1 rs2 => ?mulhsu, regReg_of_rowsM ?_ fun s rd rs1 rs2 => ?mulhu⟩
  case mul | mulhu => rfl
  case mulh => exact congrArg (s.writes rd) (mulHighSS_eq _ _)
  case mulhsu => exact congrArg (s.writes rd) (mulHighSU_eq _ _)
  all_goals simp [rowsM]

/-- Settles O3: unsigned by the division of naturals; the two signed readings by one bound on the product. -/
theorem highAndLowPartsMakeTheExactProduct : Obligations.HighAndLowPartsMakeTheExactProduct := by
  refine fun wd a b => ⟨?unsigned, ?signed, ?mixed⟩
  case unsigned => rw [toNat_mulHighUU, mulLow_eq_mul, BitVec.toNat_mul, Nat.div_add_mod']
  case signed =>
    rw [mulHighSS_eq]
    exact toInt_high_add_toNat_low wd.bits_pos (abs_toInt_mul_lt a (abs_toInt_lt b))
  case mixed =>
    rw [mulHighSU_eq, mulLow_eq_ofInt_toInt_mul_toNat]
    exact toInt_high_add_toNat_low wd.bits_pos (abs_toInt_mul_lt a (abs_toNat_lt b))

/-! ### The divisions (41_m_arith.md R145 to R148, R150, R151) -/

section

variable {w : Nat} (a b : BitVec w)

theorem divOverflows_iff : divOverflows a b = true ↔ a = BitVec.intMin w ∧ b = BitVec.allOnes w := by
  rw [divOverflows, Bool.and_eq_true, beq_iff_eq, beq_iff_eq]

/-- The overflow row tested as in the table of R150. -/
theorem divSigned_eq : divSigned a b =
    if b = 0 then BitVec.allOnes w
    else if a = BitVec.intMin w ∧ b = BitVec.allOnes w then BitVec.intMin w
    else BitVec.ofInt w (a.toInt.tdiv b.toInt) := by
  simp only [divSigned, divOverflows_iff]

/-- The remainder of the division that rounds toward zero. -/
theorem remSigned_eq : remSigned a b =
    if b = 0 then a
    else if a = BitVec.intMin w ∧ b = BitVec.allOnes w then 0
    else BitVec.ofInt w (a.toInt.tmod b.toInt) := by
  simp only [remSigned, divOverflows_iff, Int.tmod_def]

theorem remUnsigned_eq_umod : remUnsigned a b = a % b := by
  unfold remUnsigned
  split
  next hb => rw [hb]; exact BitVec.umod_zero.symm
  next => exact BitVec.umod_def.symm

theorem divUnsigned_of_ne_zero (hb : b ≠ 0) : divUnsigned a b = a / b := by
  rw [divUnsigned, if_neg hb, BitVec.udiv_def]

theorem divUnsigned_mul_add_remUnsigned : divUnsigned a b * b + remUnsigned a b = a := by
  by_cases hb : b = 0
  · subst hb
    rw [remUnsigned, if_pos rfl, BitVec.ofNat_eq_ofNat, BitVec.mul_zero, BitVec.zero_add]
  · rw [divUnsigned_of_ne_zero a b hb, remUnsigned_eq_umod]
    apply BitVec.eq_of_toNat_eq
    rw [BitVec.toNat_add, BitVec.toNat_mul, BitVec.toNat_udiv, BitVec.toNat_umod, Nat.mod_add_mod, Nat.div_add_mod',
      Nat.mod_eq_of_lt a.isLt]

theorem divSigned_mul_add_remSigned : divSigned a b * b + remSigned a b = a := by
  rw [divSigned_eq, remSigned_eq]
  split_ifs with hzero hoverflow
  · rw [hzero, BitVec.ofNat_eq_ofNat, BitVec.mul_zero, BitVec.zero_add]
  · obtain ⟨rfl, rfl⟩ := hoverflow
    rw [← BitVec.neg_one_eq_allOnes, BitVec.mul_neg, BitVec.mul_one, BitVec.neg_intMin, BitVec.ofNat_eq_ofNat,
      BitVec.add_zero]
  · calc
      BitVec.ofInt w (a.toInt.tdiv b.toInt) * b + BitVec.ofInt w (a.toInt.tmod b.toInt)
      _ = BitVec.ofInt w (a.toInt.tdiv b.toInt * b.toInt + a.toInt.tmod b.toInt) := by
        rw [BitVec.ofInt_add, BitVec.ofInt_mul, BitVec.ofInt_toInt]
      _ = a := by rw [Int.tdiv_mul_add_tmod, BitVec.ofInt_toInt]

end

/-- Settles O2: the four rows, and the meanings with the table of R150 as it is written there. -/
theorem divideInstructionsFollowTheEdgeCaseTable : Obligations.DivideInstructionsFollowTheEdgeCaseTable := by
  refine ⟨regReg_of_rowsM ?_ fun s rd rs1 rs2 => ?div, regReg_of_rowsM ?_ fun s rd rs1 rs2 => ?divu,
    regReg_of_rowsM ?_ fun s rd rs1 rs2 => ?rem, regReg_of_rowsM ?_ fun s rd rs1 rs2 => ?remu⟩
  case div => exact congrArg (s.writes rd) (divSigned_eq _ _)
  case rem => exact congrArg (s.writes rd) (remSigned_eq _ _)
  case divu | remu => rfl
  all_goals simp [rowsM]

/-- Settles O4: the three sums row by row of the table, and the unsigned remainder as one of naturals. -/
theorem quotientTimesDivisorPlusRemainderIsDividend :
    Obligations.QuotientTimesDivisorPlusRemainderIsDividend := by
  refine fun wd a b => ⟨divUnsigned_mul_add_remUnsigned a b, divSigned_mul_add_remSigned a b, fun hb => ?_⟩
  rw [remUnsigned_eq_umod, BitVec.toNat_umod]
  exact Nat.mod_lt _ (Nat.pos_of_ne_zero fun h => hb (BitVec.eq_of_toNat_eq h))

end Sys2Proof.Machine
end

section
/-! SUPPORT. Proofs of the family 42_base_alu.md: from a row of the opcode map and the value a meaning writes to each
shape of instruction; the meanings' word operations as wrapped arithmetic on integers. -/

namespace Sys2Proof

/-- A register shift uses as many bits of its amount as count up to W (42_base_alu.md section 4). -/
theorem Width.two_pow_shamtBits (wd : Width) : 2 ^ wd.shamtBits = wd.bits := by
  cases wd <;> rfl

theorem Width.twelve_le_bits (wd : Width) : 12 ≤ wd.bits := by
  cases wd <;> decide

end Sys2Proof

namespace Sys2Proof.Machine

open Sys2Proof.Spec

/-! ### Legal and illegal words (30_encoding.md R93, R94, R99, R102, R109) -/

/-- A word with the fixed bits of a row decodes to what the row builds. -/
theorem encoded_of_row {r : Row} (hrow : r ∈ opcodeMap) : Encoded r.ext r.widths r.mask r.pat r.build :=
  fun _ hwd _ he _ hs => decode_of_selects hrow hwd he hs

/-- Fixed bits that differ, in a bit both masks cover, from those of every row that applies at W = 32. -/
theorem illegalAt32_of_disjoint {mask pat : InsnWord}
    (h : ∀ r ∈ opcodeMap, Width.w32 ∈ r.widths → r.pat &&& mask ≠ pat &&& r.mask) : IllegalAt32 mask pat := by
  intro exts w hw
  rw [Option.eq_none_iff_forall_ne_some]
  intro i hd
  obtain ⟨r, hr, -, hwd, hs, -⟩ := decode_eq_some hd
  apply h r hr hwd
  rw [← hs, ← hw, BitVec.and_assoc, BitVec.and_assoc, BitVec.and_comm r.mask mask]

/-! ### The shapes of instructions (42_base_alu.md R190) -/

/-- A row of format I and a meaning of the shape `x[rd] <- f(x[rs1], imm)` make a register-immediate instruction. -/
theorem regImm_of_rowI {ws : List Width} {pat : InsnWord} {c : Reg → Reg → BitVec 12 → Instr}
    {f : ∀ s : State, BitVec s.W → BitVec 12 → BitVec s.W} (hrow : rowI ws pat c ∈ opcodeMap)
    (hexec : ∀ (s : State) (rd rs1 : Reg) (imm : BitVec 12), s.cfg.width ∈ ws →
      exec (c rd rs1 imm) s = s.writes rd (f s (s.x rs1) imm)) : RegImm ws pat c f :=
  ⟨encoded_of_row hrow, fun s rd rs1 imm hwd => hexec s rd rs1 imm hwd ▸ s.writes_writesReg rd _⟩

/-- The rows of a shift at the two widths, and a meaning that is legal for every amount below W and then of the shape
`x[rd] <- f(x[rs1], shamt)`, make a shift by an immediate amount. -/
theorem shiftImm_of_rows {pat : InsnWord} {c : Reg → Reg → BitVec 6 → Instr}
    {f : ∀ s : State, BitVec s.W → Nat → BitVec s.W} (hrow32 : rowShift32 pat c ∈ opcodeMap)
    (hrow64 : rowShift64 pat c ∈ opcodeMap) (hillegal : IllegalAt32 0xfe00707f (pat ||| 0x02000000))
    (hfits : ∀ wd rd rs1 (amt : BitVec 6), (c rd rs1 amt).fitsWidth wd = decide (amt.toNat < wd.bits))
    (hexec : ∀ (s : State) (rd rs1 : Reg) (amt : BitVec 6),
      exec (c rd rs1 amt) s = s.whenLegal (c rd rs1 amt) (s.writes rd (f s (s.x rs1) amt.toNat))) :
    ShiftImm pat c f := by
  refine ⟨encoded_of_row hrow32, encoded_of_row hrow64, hillegal, fun s rd rs1 amt hamt => ?_⟩
  have hlegal : (c rd rs1 amt).fitsWidth s.cfg.width = true := (hfits ..).trans (decide_eq_true hamt)
  rw [hexec, State.whenLegal_of_fits _ hlegal]
  exact s.writes_writesReg rd _

/-- Where the instruction exists, a word instruction writes its 32-bit result sign-extended (42_base_alu.md section
5). -/
theorem State.writesWord_of_fits {s : State} {i : Instr} (rd : Reg) (r : BitVec 32)
    (h : i.fitsWidth s.cfg.width = true) : s.writesWord i rd r = s.writes rd (r.signExtend s.W) :=
  State.whenLegal_of_fits _ h

/-- A row of format R at W = 64 and a meaning `x[rd] <- sext_32(f(x[rs1], x[rs2]))` make a register-register
instruction. -/
theorem regReg_of_rowR_word {pat : InsnWord} {c : Reg → Reg → Reg → Instr}
    {f : ∀ s : State, BitVec s.W → BitVec s.W → BitVec 32} (hrow : rowR .I [.w64] pat c ∈ opcodeMap)
    (hfits : ∀ rd rs1 rs2, (c rd rs1 rs2).fitsWidth .w64 = true)
    (hexec : ∀ (s : State) (rd rs1 rs2 : Reg),
      exec (c rd rs1 rs2) s = s.writesWord (c rd rs1 rs2) rd (f s (s.x rs1) (s.x rs2))) :
    RegReg .I [.w64] pat c (fun s a b => (f s a b).signExtend s.W) :=
  regReg_of_rowR hrow fun s rd rs1 rs2 hwd =>
    (hexec s rd rs1 rs2).trans (State.writesWord_of_fits rd _ (List.mem_singleton.1 hwd ▸ hfits rd rs1 rs2))

/-- A word shift row and a meaning `x[rd] <- sext_32(f(x[rs1], shamt))` make a word shift by an immediate amount. -/
theorem wordShiftImm_of_row {pat : InsnWord} {c : Reg → Reg → BitVec 5 → Instr}
    {f : ∀ s : State, BitVec s.W → Nat → BitVec 32} (hrow : rowShiftW [.w64] pat c ∈ opcodeMap)
    (hillegal : IllegalAt32 0xfe00707f pat) (hfits : ∀ rd rs1 amt, (c rd rs1 amt).fitsWidth .w64 = true)
    (hexec : ∀ (s : State) (rd rs1 : Reg) (amt : BitVec 5),
      exec (c rd rs1 amt) s = s.writesWord (c rd rs1 amt) rd (f s (s.x rs1) amt.toNat)) :
    WordShiftImm pat c (fun s a n => (f s a n).signExtend s.W) := by
  refine ⟨encoded_of_row hrow, hillegal, fun s rd rs1 amt hwd => ?_⟩
  rw [hexec, State.writesWord_of_fits rd _ (hwd ▸ hfits rd rs1 amt)]
  exact s.writes_writesReg rd _

/-! ### The word operations as wrapped arithmetic on integers (00_scope.md R11, R12) -/

section

variable {w : Nat} (a b : BitVec w) (n : Nat)

theorem ofInt_toNat : BitVec.ofInt w (a.toNat : Int) = a := by
  rw [BitVec.ofInt_natCast, BitVec.ofNat_toNat, BitVec.setWidth_eq]

/-- A sum with a wrapped integer, as every immediate is one. -/
theorem add_ofInt (k : Int) : a + BitVec.ofInt w k = BitVec.ofInt w (a.toNat + k) := by
  rw [BitVec.ofInt_add, ofInt_toNat]

theorem sub_eq_ofInt : a - b = BitVec.ofInt w ((a.toNat : Int) - (b.toNat : Int)) := by
  rw [sub_eq_add_neg, sub_eq_add_neg, ← add_ofInt, BitVec.ofInt_neg, ofInt_toNat]

/-- The U-immediate is the 20 bits times 2^12, wrapped (30_encoding.md R87). -/
theorem immU_eq_ofInt (imm20 : BitVec 20) : (immU imm20 : BitVec w) = BitVec.ofInt w (imm20.toInt * 2 ^ 12) := by
  rw [immU, sext, BitVec.signExtend, BitVec.toInt_append_zero, mul_comm]

theorem shiftLeft_eq_ofNat : a <<< n = BitVec.ofNat w (a.toNat * 2 ^ n) := by
  rw [← BitVec.shiftLeft_eq, BitVec.shiftLeft, Nat.shiftLeft_eq]

theorem ushiftRight_eq_ofNat : a >>> n = BitVec.ofNat w (a.toNat / 2 ^ n) := by
  rw [← Nat.shiftRight_eq_div_pow, ← BitVec.toNat_ushiftRight, BitVec.ofNat_toNat, BitVec.setWidth_eq]

theorem sshiftRight_eq_ofInt : a.sshiftRight n = BitVec.ofInt w (a.toInt / 2 ^ n) := by
  rw [BitVec.sshiftRight, Int.shiftRight_eq_div_pow, Nat.cast_pow, Nat.cast_ofNat]

/-! ### Low words (42_base_alu.md section 5) -/

theorem toNat_low32 : (low32 a).toNat = a.toNat % 2 ^ 32 := by
  rw [low32, BitVec.extractLsb'_toNat, Nat.shiftRight_zero]

theorem low32_eq_setWidth : low32 a = a.setWidth 32 := by
  apply BitVec.eq_of_toNat_eq
  rw [toNat_low32, BitVec.toNat_setWidth]

theorem wordShiftAmount_eq : wordShiftAmount b = b.toNat % 32 := by
  rw [wordShiftAmount, BitVec.extractLsb'_toNat, Nat.shiftRight_zero]

theorem low32_shiftLeft : low32 a <<< n = BitVec.ofNat 32 (a.toNat % 2 ^ 32 * 2 ^ n) := by
  rw [shiftLeft_eq_ofNat, toNat_low32]

theorem low32_ushiftRight : low32 a >>> n = BitVec.ofNat 32 (a.toNat % 2 ^ 32 / 2 ^ n) := by
  rw [ushiftRight_eq_ofNat, toNat_low32]

theorem low32_sshiftRight : (low32 a).sshiftRight n = BitVec.ofInt 32 ((a.setWidth 32).toInt / 2 ^ n) := by
  rw [sshiftRight_eq_ofInt, low32_eq_setWidth]

end

/-- The bits of a register shift amount are those below W (42_base_alu.md section 4). -/
theorem State.shiftAmount_eq (s : State) (b : BitVec s.W) : s.shiftAmount b = b.toNat % s.W := by
  rw [State.shiftAmount, BitVec.extractLsb'_toNat, Nat.shiftRight_zero, Width.two_pow_shamtBits]

/-- An immediate has the same signed value at either width (30_encoding.md R84). -/
theorem State.toInt_imm (s : State) (imm : BitVec 12) : (s.imm imm).toInt = imm.toInt :=
  BitVec.toInt_signExtend_of_le s.cfg.width.twelve_le_bits

theorem boolValue_decide {w : Nat} (p : Prop) [Decidable p] :
    boolValue (decide p) = if p then 1#w else 0#w := by
  simp only [boolValue, decide_eq_true_eq]
  rfl

/-! ### The obligations -/

/-- Settles O6: two rows of format U, and the upper immediate as a wrapped integer. -/
theorem upperImmediateInstructions : Obligations.UpperImmediateInstructions := by
  refine ⟨encoded_of_row (r := rowU bothWidths _ .lui) ?_, encoded_of_row (r := rowU bothWidths _ .auipc) ?_,
    fun s rd imm20 => ⟨?lui, ?auipc⟩⟩
  case lui =>
    rw [← immU_eq_ofInt]
    exact s.writes_writesReg rd _
  case auipc =>
    rw [← add_ofInt, ← immU_eq_ofInt]
    exact s.writes_writesReg rd _
  all_goals simp [opcodeMap, rowsUpper]

/-- Settles O7: a sign-extended immediate is its signed value wrapped, so only ADDI's sum is to be rewritten. -/
theorem addAndLogicImmediates : Obligations.AddAndLogicImmediates := by
  refine ⟨regImm_of_rowI ?_ fun s rd rs1 imm _ => ?addi, regImm_of_rowI ?_ fun s rd rs1 imm _ => ?xori,
    regImm_of_rowI ?_ fun s rd rs1 imm _ => ?ori, regImm_of_rowI ?_ fun s rd rs1 imm _ => ?andi⟩
  case addi => exact congrArg (s.writes rd) (add_ofInt _ _)
  case xori | ori | andi => rfl
  all_goals simp [opcodeMap, rowsImm, bothWidths]

/-- Settles O8: the comparisons are those of integers; SLTI's immediate keeps its signed value at either width. -/
theorem comparisonsWriteOneOrZero : Obligations.ComparisonsWriteOneOrZero := by
  refine ⟨regImm_of_rowI ?_ fun s rd rs1 imm _ => ?slti, regImm_of_rowI ?_ fun s rd rs1 imm _ => ?sltiu,
    regReg_of_rowR ?_ fun s rd rs1 rs2 _ => ?slt, regReg_of_rowR ?_ fun s rd rs1 rs2 _ => ?sltu⟩
  case slti =>
    rw [← s.toInt_imm imm]
    exact congrArg (s.writes rd) (boolValue_decide _)
  case sltiu | slt | sltu => exact congrArg (s.writes rd) (boolValue_decide _)
  all_goals simp [opcodeMap, rowsImm, rowsReg, bothWidths]

/-- Settles O9: the two rows of each shift, and its value with the power of two written out. -/
theorem shiftsByImmediate : Obligations.ShiftsByImmediate := by
  refine ⟨shiftImm_of_rows ?_ ?_ ?slliIllegal (fun _ _ _ _ => rfl) fun s rd rs1 amt => ?slli,
    shiftImm_of_rows ?_ ?_ ?srliIllegal (fun _ _ _ _ => rfl) fun s rd rs1 amt => ?srli,
    shiftImm_of_rows ?_ ?_ ?sraiIllegal (fun _ _ _ _ => rfl) fun s rd rs1 amt => ?srai⟩
  case slliIllegal | srliIllegal | sraiIllegal => exact illegalAt32_of_disjoint (by decide)
  case slli => exact congrArg (fun v => s.whenLegal _ (s.writes rd v)) (shiftLeft_eq_ofNat _ _)
  case srli => exact congrArg (fun v => s.whenLegal _ (s.writes rd v)) (ushiftRight_eq_ofNat _ _)
  case srai => exact congrArg (fun v => s.whenLegal _ (s.writes rd v)) (sshiftRight_eq_ofInt _ _)
  all_goals simp [opcodeMap, rowsImm]

/-- Settles O10: five rows of format R; SUB's difference is one of integers, wrapped. -/
theorem addSubtractAndLogic : Obligations.AddSubtractAndLogic := by
  refine ⟨regReg_of_rowR ?_ fun s rd rs1 rs2 _ => ?add, regReg_of_rowR ?_ fun s rd rs1 rs2 _ => ?sub,
    regReg_of_rowR ?_ fun s rd rs1 rs2 _ => ?xor, regReg_of_rowR ?_ fun s rd rs1 rs2 _ => ?or,
    regReg_of_rowR ?_ fun s rd rs1 rs2 _ => ?and⟩
  case add => exact congrArg (s.writes rd) (BitVec.add_def _ _)
  case sub => exact congrArg (s.writes rd) (sub_eq_ofInt _ _)
  case xor | or | and => rfl
  all_goals simp [opcodeMap, rowsReg, bothWidths]

/-- Settles O11: the shifts of O9 with the amount `b mod W`. -/
theorem shiftsByRegister : Obligations.ShiftsByRegister := by
  refine ⟨regReg_of_rowR ?_ fun s rd rs1 rs2 _ => ?sll, regReg_of_rowR ?_ fun s rd rs1 rs2 _ => ?srl,
    regReg_of_rowR ?_ fun s rd rs1 rs2 _ => ?sra⟩
  case sll => exact congrArg (s.writes rd) (s.shiftAmount_eq _ ▸ shiftLeft_eq_ofNat _ _)
  case srl => exact congrArg (s.writes rd) (s.shiftAmount_eq _ ▸ ushiftRight_eq_ofNat _ _)
  case sra => exact congrArg (s.writes rd) (s.shiftAmount_eq _ ▸ sshiftRight_eq_ofInt _ _)
  all_goals simp [opcodeMap, rowsReg, bothWidths]

/-- Settles O12: sums and differences of low words, whose values are the operands modulo 2^32. -/
theorem wordAddAndSubtract : Obligations.WordAddAndSubtract := by
  refine ⟨regImm_of_rowI ?_ fun s rd rs1 imm hwd => ?addiw,
    regReg_of_rowR_word ?_ (fun _ _ _ => rfl) fun s rd rs1 rs2 => ?addw,
    regReg_of_rowR_word ?_ (fun _ _ _ => rfl) fun s rd rs1 rs2 => ?subw,
    illegalAt32_of_disjoint (by decide), illegalAt32_of_disjoint (by decide), illegalAt32_of_disjoint (by decide)⟩
  case addiw =>
    rw [← toNat_low32, ← add_ofInt]
    exact State.writesWord_of_fits rd _ (beq_iff_eq.2 (List.mem_singleton.1 hwd))
  case addw =>
    rw [← toNat_low32, ← toNat_low32]
    exact congrArg (s.writesWord _ rd) (BitVec.add_def _ _)
  case subw =>
    rw [← toNat_low32, ← toNat_low32]
    exact congrArg (s.writesWord _ rd) (sub_eq_ofInt _ _)
  all_goals simp [opcodeMap, rowsWord]

/-- Settles O13: one row of each word shift, and the shift of the low word. -/
theorem wordShiftsByImmediate : Obligations.WordShiftsByImmediate := by
  refine ⟨wordShiftImm_of_row ?_ ?slliwIllegal (fun _ _ _ => rfl) fun s rd rs1 amt => ?slliw,
    wordShiftImm_of_row ?_ ?srliwIllegal (fun _ _ _ => rfl) fun s rd rs1 amt => ?srliw,
    wordShiftImm_of_row ?_ ?sraiwIllegal (fun _ _ _ => rfl) fun s rd rs1 amt => ?sraiw⟩
  case slliwIllegal | srliwIllegal | sraiwIllegal => exact illegalAt32_of_disjoint (by decide)
  case slliw => exact congrArg (s.writesWord _ rd) (low32_shiftLeft _ _)
  case srliw => exact congrArg (s.writesWord _ rd) (low32_ushiftRight _ _)
  case sraiw => exact congrArg (s.writesWord _ rd) (low32_sshiftRight _ _)
  all_goals simp [opcodeMap, rowsWord]

/-- Settles O14: the shifts of O13 with the amount `b mod 32`. -/
theorem wordShiftsByRegister : Obligations.WordShiftsByRegister := by
  refine ⟨regReg_of_rowR_word ?_ (fun _ _ _ => rfl) fun s rd rs1 rs2 => ?sllw,
    regReg_of_rowR_word ?_ (fun _ _ _ => rfl) fun s rd rs1 rs2 => ?srlw,
    regReg_of_rowR_word ?_ (fun _ _ _ => rfl) fun s rd rs1 rs2 => ?sraw,
    illegalAt32_of_disjoint (by decide), illegalAt32_of_disjoint (by decide), illegalAt32_of_disjoint (by decide)⟩
  case sllw => exact congrArg (s.writesWord _ rd) (wordShiftAmount_eq _ ▸ low32_shiftLeft _ _)
  case srlw => exact congrArg (s.writesWord _ rd) (wordShiftAmount_eq _ ▸ low32_ushiftRight _ _)
  case sraw => exact congrArg (s.writesWord _ rd) (wordShiftAmount_eq _ ▸ low32_sshiftRight _ _)
  all_goals simp [opcodeMap, rowsWord]

end Sys2Proof.Machine
end

section
/-! SUPPORT. Proofs of the family 43_base_loadstore.md: from a row of the opcode map and a meaning of the shape load or
store to each instruction; the value a load makes of its bytes, and the bytes a store makes of its value. -/

namespace Sys2Proof.Machine

open Sys2Proof.Spec

/-! ### The value of several bytes (20_memory.md R53, R54) -/

/-- The bytes `f 0` to `f n` as one value, the first least significant. A read of at least one byte, so that the append
starts at a byte as the rules write it. -/
def bytesLE (f : Nat → Byte) : (n : Nat) → BitVec (8 * (n + 1))
  | 0 => f 0
  | n + 1 => bytesLE (fun i => f (i + 1)) n ++ f 0

/-- A read of `n` bytes fits `8 * n` bits. -/
theorem Memory.toNat_ofNat_readLE (m : Memory) (n a : Nat) :
    (BitVec.ofNat (8 * n) (m.readLE a n)).toNat = m.readLE a n := by
  have hlt : m.readLE a n < 2 ^ (8 * n) := by
    rw [pow_mul]
    exact m.readLE_lt n a
  rw [BitVec.toNat_ofNat, Nat.mod_eq_of_lt hlt]

/-- A read takes the bytes from its address on. -/
theorem Memory.ofNat_readLE (m : Memory) (n a : Nat) :
    BitVec.ofNat (8 * (n + 1)) (m.readLE a (n + 1)) = bytesLE (fun i => m.read (a + i)) n := by
  induction n generalizing a with
  | zero => simp [Memory.readLE, bytesLE]
  | succ n ih =>
    have hread : (fun i => m.read (a + (i + 1))) = fun i => m.read (a + 1 + i) :=
      funext fun i => congrArg m.read (Nat.add_right_comm a i 1)
    apply BitVec.eq_of_toNat_eq
    rw [bytesLE, hread, ← ih, toNat_append_byte, Memory.toNat_ofNat_readLE, Memory.toNat_ofNat_readLE]
    rfl

/-- A written byte is the value's bits at its place. -/
theorem Memory.read_writeLE_inside {w : Nat} (m : Memory) (a : Nat) (v : BitVec w) {n i : Nat} (hi : i < n) :
    (m.writeLE a n v.toNat).read (a + i) = v.extractLsb' (8 * i) 8 := by
  have hin : a ≤ a + i ∧ a + i < a + n := by omega
  rw [Memory.read_writeLE, if_pos hin, Nat.add_sub_cancel_left, BitVec.extractLsb', Nat.shiftRight_eq_div_pow, pow_mul]
  rfl

/-! ### The shapes of instructions (43_base_loadstore.md R220, R221) -/

/-- A load in bounds writes its register with what is made of the bytes read. -/
theorem State.load_completes {s : State} {rd rs1 : Reg} {imm : BitVec 12} {n : Nat} {ext : Nat → BitVec s.W}
    (h : address s rs1 imm + n ≤ s.cfg.memSize) :
    s.load rd rs1 imm n ext = s.writes rd (ext (s.arch.mem.readLE (address s rs1 imm) n)) := by
  rw [← State.toNat_effAddr] at h ⊢
  exact State.load_inBounds h

/-- A row of format I and a meaning that loads `n + 1` bytes and widens them make a load. -/
theorem load_of_rowI {ws : List Width} {pat : InsnWord} {c : Reg → Reg → BitVec 12 → Instr} {n : Nat}
    {ext : ∀ s : State, BitVec (8 * (n + 1)) → BitVec s.W} (hrow : rowI ws pat c ∈ opcodeMap)
    (hexec : ∀ (s : State) (rd rs1 : Reg) (imm : BitVec 12), s.cfg.width ∈ ws →
      exec (c rd rs1 imm) s = s.load rd rs1 imm (n + 1) fun v => ext s (BitVec.ofNat (8 * (n + 1)) v)) :
    Load ws pat c (n + 1) fun s f => ext s (bytesLE f n) := by
  refine ⟨encoded_of_row hrow, fun s rd rs1 imm hwd => ?_⟩
  rw [hexec s rd rs1 imm hwd]
  refine ⟨fun hin => ?_, fun hout => DecidedByAccess.load.faults _ _ _ rfl hout⟩
  rw [State.load_completes hin, Memory.ofNat_readLE]
  exact s.writes_writesReg rd _

/-- A committed write of the low `n` bytes of a value changes those bytes and the pc (R220). -/
theorem Arch.commit_stored {w : Nat} (c : Arch w) (a n : Nat) (v : BitVec w) :
    Stored c (c.commit { mem := some ⟨a, n, v.toNat⟩ }) a n v where
  bytes _ hi := c.mem.read_writeLE_inside a v hi
  others _ hb := Memory.read_writeLE_outside hb
  regs _ := rfl
  pc := rfl
  cycles := c.commit_cycles _
  budget := c.commit_budget _
  signal := rfl
  storeEvent := rfl

/-- A row of format S and a meaning that stores `n` bytes make a store. -/
theorem store_of_rowS {ws : List Width} {pat : InsnWord} {c : Reg → Reg → BitVec 12 → Instr} {n : Nat}
    (hrow : rowS ws pat c ∈ opcodeMap)
    (hexec : ∀ (s : State) (rs1 rs2 : Reg) (imm : BitVec 12), s.cfg.width ∈ ws →
      exec (c rs1 rs2 imm) s = s.store rs1 rs2 imm n) : Store ws pat c n := by
  refine ⟨encoded_of_row hrow, fun s rs1 rs2 imm hwd => ?_⟩
  rw [hexec s rs1 rs2 imm hwd]
  exact ⟨fun hin => ⟨_, State.store_completes hin, s.arch.commit_stored _ n _⟩,
    fun hout => DecidedByAccess.store.faults _ _ _ rfl hout⟩

/-- An instruction of W = 64 only has its meaning there. -/
theorem State.whenLegal_of_w64 {s : State} {i : Instr} (r : Result) (hwd : s.cfg.width ∈ [Width.w64])
    (hfits : i.fitsWidth .w64 = true) : s.whenLegal i r = r :=
  State.whenLegal_of_fits r (List.mem_singleton.1 hwd ▸ hfits)

/-! ### The obligations -/

/-- Settles O15: five rows of format I; a sign- or zero-extended read of the bytes from the effective address on. -/
theorem loadsOfBothWidths : Obligations.LoadsOfBothWidths := by
  refine ⟨load_of_rowI (n := 0) (ext := fun _ => sext) ?_ fun s rd rs1 imm _ => ?lb,
    load_of_rowI (n := 1) (ext := fun _ => sext) ?_ fun s rd rs1 imm _ => ?lh,
    load_of_rowI (n := 3) (ext := fun _ => sext) ?_ fun s rd rs1 imm _ => ?lw,
    load_of_rowI (n := 0) (ext := fun _ => zext) ?_ fun s rd rs1 imm _ => ?lbu,
    load_of_rowI (n := 1) (ext := fun _ => zext) ?_ fun s rd rs1 imm _ => ?lhu⟩
  case lb | lh | lw | lbu | lhu => rfl
  all_goals simp [opcodeMap, rowsLoadStore, bothWidths]

/-- Settles O16: two rows of format I at W = 64, and fixed bits no row at W = 32 has. -/
theorem loadsOfWidth64Only : Obligations.LoadsOfWidth64Only := by
  refine ⟨load_of_rowI (n := 3) (ext := fun _ => zext) ?_ fun s rd rs1 imm hwd => ?lwu,
    load_of_rowI (n := 7) (ext := fun _ => zext) ?_ fun s rd rs1 imm hwd => ?ld,
    illegalAt32_of_disjoint (by decide), illegalAt32_of_disjoint (by decide)⟩
  case lwu | ld => exact State.whenLegal_of_w64 _ hwd rfl
  all_goals simp [opcodeMap, rowsLoadStore]

/-- Settles O17: four rows of format S and the one committed memory write; SD's at W = 64, its fixed bits in no row at
W = 32. -/
theorem storesWriteTheLowBytes : Obligations.StoresWriteTheLowBytes := by
  refine ⟨store_of_rowS ?_ fun s rs1 rs2 imm _ => ?sb, store_of_rowS ?_ fun s rs1 rs2 imm _ => ?sh,
    store_of_rowS ?_ fun s rs1 rs2 imm _ => ?sw, store_of_rowS ?_ fun s rs1 rs2 imm hwd => ?sd,
    illegalAt32_of_disjoint (by decide)⟩
  case sb | sh | sw => rfl
  case sd => exact State.whenLegal_of_w64 _ hwd rfl
  all_goals simp [opcodeMap, rowsLoadStore, bothWidths]

end Sys2Proof.Machine
end

section
/-! SUPPORT. Proofs of the family 44_base_control.md: from a row of the opcode map and a meaning of the shape branch or
jump to each instruction; a target with bit 0 cleared as an even number. -/

namespace Sys2Proof.Machine

open Sys2Proof.Spec

/-! ### The shapes of instructions (44_base_control.md R250) -/

/-- An instruction that writes no memory makes its register write and its change of the pc, puts out its signal, and
changes nothing else (40_dispatch.md R120, R124). -/
theorem State.finish_completes (s : State) {e : Effects s.W} (hmem : e.mem = none) :
    Completes s (s.finish e) fun c => Became s.arch c e.reg (e.nextPc.getD (s.arch.pc + 4)) e.signal :=
  ⟨_, rfl, {
    regs := Arch.x_commit s.arch e
    pc := rfl
    mem := fun a => by rw [Arch.commit_mem, hmem, Memory.commit_none]
    cycles := s.arch.commit_cycles e
    budget := s.arch.commit_budget e
    signal := rfl
    storeEvent := by rw [Arch.commit_storeEvent, hmem, Option.map_none] }⟩

/-- A target relative to the pc is a wrapped sum of integers (R250, R257). -/
theorem State.pc_add_imm {n : Nat} (s : State) (off : BitVec n) :
    s.pc + s.imm off = BitVec.ofInt s.W (s.arch.pc.toNat + off.toInt) :=
  add_ofInt _ _

/-- A row of format B and a meaning of the shape branch, taken exactly when the condition holds, make a conditional
branch. -/
theorem branch_of_rowB {pat : InsnWord} {c : Reg → Reg → BitVec 13 → Instr}
    {test : ∀ s : State, BitVec s.W → BitVec s.W → Bool} {cond : ∀ s : State, BitVec s.W → BitVec s.W → Prop}
    (hrow : rowB bothWidths pat c ∈ opcodeMap)
    (hexec : ∀ (s : State) (rs1 rs2 : Reg) (off : BitVec 13),
      exec (c rs1 rs2 off) s = s.branch (test s (s.x rs1) (s.x rs2)) off)
    (htest : ∀ (s : State) (a b : BitVec s.W), test s a b = true ↔ cond s a b) : Branch pat c cond := by
  refine ⟨encoded_of_row hrow, fun s rs1 rs2 off => ?_⟩
  rw [hexec, ← htest, ← s.pc_add_imm]
  refine ⟨fun htaken => ?taken, fun hnot => ?notTaken⟩
  case taken =>
    rw [htaken]
    exact s.finish_completes rfl
  case notTaken =>
    rw [Bool.eq_false_of_not_eq_true hnot]
    exact s.finish_completes rfl

/-- A jump links the address after it and goes to its target (R257, R258). -/
theorem State.jump_completes (s : State) (rd : Reg) (target : BitVec s.W) :
    Completes s (s.jump rd target) fun c =>
      Became s.arch c (some (rd, BitVec.ofNat s.W (s.arch.pc.toNat + 4))) target none := by
  have hlink : BitVec.ofNat s.W (s.arch.pc.toNat + 4) = s.pc + 4 := by
    rw [BitVec.ofNat_add, BitVec.ofNat_toNat, BitVec.setWidth_eq]
    rfl
  rw [hlink]
  exact s.finish_completes rfl

/-! ### Bit 0 of a target (44_base_control.md R258) -/

/-- Clearing bit 0 shifts it out and a 0 in: the even number at or just below the target. -/
theorem clearBit0_eq_ofNat {w : Nat} (t : BitVec w) : clearBit0 t = BitVec.ofNat w (2 * (t.toNat / 2)) := by
  have hmask : ~~~1#w = BitVec.allOnes w <<< 1 := by
    ext
    simp
  calc
    clearBit0 t = t >>> 1 <<< 1 := by
      rw [clearBit0, BitVec.allOnes_sub_eq_not, BitVec.ofNat_eq_ofNat, hmask, BitVec.shiftLeft_ushiftRight]
    _ = BitVec.ofNat w (2 * (t.toNat / 2)) := by
      rw [shiftLeft_eq_ofNat, BitVec.toNat_ushiftRight, Nat.shiftRight_one, pow_one, mul_comm]

/-! ### The obligations -/

/-- Settles O20: six rows of format B, each with the condition its comparison decides. -/
theorem conditionalBranches : Obligations.ConditionalBranches := by
  refine ⟨branch_of_rowB (test := fun _ a b => a == b) ?_ (fun _ _ _ _ => rfl) fun s a b => ?beq,
    branch_of_rowB (test := fun _ a b => !(a == b)) ?_ (fun _ _ _ _ => rfl) fun s a b => ?bne,
    branch_of_rowB (test := fun _ a b => lessSigned a b) ?_ (fun _ _ _ _ => rfl) fun s a b => ?blt,
    branch_of_rowB (test := fun _ a b => !lessSigned a b) ?_ (fun _ _ _ _ => rfl) fun s a b => ?bge,
    branch_of_rowB (test := fun _ a b => lessUnsigned a b) ?_ (fun _ _ _ _ => rfl) fun s a b => ?bltu,
    branch_of_rowB (test := fun _ a b => !lessUnsigned a b) ?_ (fun _ _ _ _ => rfl) fun s a b => ?bgeu⟩
  case beq => exact beq_iff_eq
  case bne => exact bne_iff_ne
  case blt | bltu => exact decide_eq_true_iff
  case bge => simp [lessSigned]
  case bgeu => simp [lessUnsigned]
  all_goals simp [opcodeMap, rowsBranch]

/-- Settles O21: one row of format J, and a jump relative to the pc. -/
theorem jumpAndLink : Obligations.JumpAndLink := by
  refine ⟨encoded_of_row (r := rowJ bothWidths _ .jal) (by simp [opcodeMap, rowsUpper]), fun s rd off => ?_⟩
  rw [← s.pc_add_imm]
  exact s.jump_completes rd _

/-- Settles O22: one row of format I, and a jump to the effective address with bit 0 cleared. -/
theorem jumpAndLinkRegister : Obligations.JumpAndLinkRegister := by
  refine ⟨encoded_of_row (r := rowI bothWidths _ .jalr) (by simp [opcodeMap, rowsUpper]), fun s rd rs1 imm => ?_⟩
  rw [← s.toNat_effAddr, ← clearBit0_eq_ofNat]
  exact s.jump_completes rd _

end Sys2Proof.Machine
end

section
/-! SUPPORT. Proofs of the family 45_base_system.md: the step of a fitting instruction that completes, the outcome of
one that signals; the words and the outcomes of FENCE, ECALL and EBREAK. -/

namespace Sys2Proof.Machine

open Sys2Proof.Spec

/-! ### The step of an instruction that completes (40_dispatch.md R120, R127; 60_exceptions.md R308) -/

/-- The address after the instruction, as a wrapped sum of integers (40_dispatch.md R124). -/
theorem State.toNat_pc_add_four (s : State) : (s.arch.pc + 4).toNat = (s.arch.pc.toNat + 4) % 2 ^ s.W := by
  rw [BitVec.toNat_add, BitVec.ofNat_eq_ofNat, BitVec.toNat_ofNat, Nat.add_mod_mod]

section

variable {s : State} {i : Instr}

/-- An instruction that fits and completes is committed and charged. -/
theorem step_of_finish {e : Effects s.W} (hf : Fetchable s) (hd : DecodesTo s i) (hb : Fits s i)
    (hexec : exec i s = s.finish e) : step s = .next ((s.commit e).charge i) := by
  rw [step_of_fits hf hd hb, hexec]
  rfl

theorem outcome_of_signal {t : State} {g : Signal} (h : step s = .next t) (hg : t.arch.signal = some g) :
    outcome s = .signal g t := by
  simp only [outcome, h, hg]

/-- Charging leaves the signal and the pc of the commit, so the host meets both in the outcome. -/
theorem outcome_of_signals {g : Signal} (hexec : exec i s = s.signals g) (hf : Fetchable s) (hd : DecodesTo s i)
    (hb : Fits s i) :
    ∃ t, outcome s = .signal g t ∧ t.arch.pc.toNat = (s.arch.pc.toNat + 4) % 2 ^ s.W ∧
      t.arch.cycles.toNat = s.arch.cycles.toNat + s.cfg.cost i :=
  ⟨_, outcome_of_signal (step_of_finish hf hd hb hexec) rfl, s.toNat_pc_add_four,
    State.toNat_charge_commit_cycles hb _⟩

end

/-! ### The obligations -/

/-- Settles O24: each word is a row of its own, and the meaning is the shape that signals. -/
theorem environmentInstructionsCompleteAndSignal : Obligations.EnvironmentInstructionsCompleteAndSignal := by
  refine ⟨encoded_of_row (r := ⟨.I, bothWidths, _, _, fun _ => .ecall⟩) ?_,
    encoded_of_row (r := ⟨.I, bothWidths, _, _, fun _ => .ebreak⟩) ?_, fun s =>
    ⟨s.finish_completes rfl, s.finish_completes rfl, outcome_of_signals rfl, outcome_of_signals rfl⟩⟩
  all_goals simp [opcodeMap, rowsSystem]

/-- Settles O23: the row of FENCE leaves the operand fields free and no row selects FENCE.I; the meaning has no
effects. -/
theorem fenceOnlyAdvances : Obligations.FenceOnlyAdvances := by
  refine ⟨encoded_of_row (r := ⟨.I, bothWidths, _, _, fun _ => .fence⟩) (by simp [opcodeMap, rowsSystem]),
    decode_eq_none (by decide), fun s => ⟨s.finish_completes rfl, fun hf hd hb => ?charged⟩⟩
  case charged =>
    exact ⟨_, step_of_finish hf hd hb rfl, State.toNat_charge_commit_cycles hb _⟩

end Sys2Proof.Machine
end

section
/-! SUPPORT. Proofs of the family 60_exceptions.md: the signal an executed instruction leaves, the step that halts, the
order in which a step reports its conditions. -/

namespace Sys2Proof.Machine

open Sys2Proof.Spec

section

variable {s : State} {i : Instr}

/-! ### Signals (60_exceptions.md R300, R304, R305) -/

theorem signal_of_exec_next {t : State} (h : exec i s = .next t) : t.arch.signal = signalOf i := by
  obtain ⟨e, he, rfl⟩ := exec_next h
  exact (s.arch.commit_signal e).trans he.signal

theorem signalOf_eq_environmentCall_iff : signalOf i = some .environmentCall ↔ i = .ecall := by
  cases i <;> simp [signalOf]

theorem signalOf_eq_breakpoint_iff : signalOf i = some .breakpoint ↔ i = .ebreak := by
  cases i <;> simp [signalOf]

/-! ### The step that halts (60_exceptions.md R303, R312) -/

theorem outcome_of_next {t : State} (h : step s = .next t) (hg : t.arch.signal = none) : outcome s = .next t := by
  simp only [outcome, h, hg]

theorem step_of_outcome_halt {t : State} (h : outcome s = .halt t) : step s = .fault .cycleBudgetExceeded := by
  unfold outcome at h
  split at h
  next => split at h <;> exact nomatch h
  next hstep => exact hstep
  all_goals exact nomatch h

theorem Result.charged_ne_fault {x : Result} {f : Fault} (h : x ≠ .fault f) : Result.charged i x ≠ .fault f := by
  cases x with
  | next | refused => exact nofun
  | fault g => exact h

theorem exec_ne_cycleBudgetExceeded (i : Instr) (s : State) : exec i s ≠ .fault .cycleBudgetExceeded := by
  intro h
  have hshape : ExecShape i s (.fault .cycleBudgetExceeded) := h ▸ exec_shape i s
  cases hshape

/-- A halt comes from the budget check alone: no stage before it and no execution reports it. -/
theorem stages_of_step_halts (h : step s = .fault .cycleBudgetExceeded) :
    ∃ i, Fetchable s ∧ DecodesTo s i ∧ ¬ Fits s i := by
  by_cases hf : Fetchable s
  case neg => exact nomatch (step_of_not_fetchable hf).symm.trans h
  cases hd : decode s.cfg.width s.cfg.extensions (wordAtPc s) with
  | none => exact nomatch (step_of_illegal hf hd).symm.trans h
  | some i =>
    refine ⟨i, hf, hd, fun hb => ?_⟩
    exact Result.charged_ne_fault (exec_ne_cycleBudgetExceeded i s) ((step_of_fits hf hd hb).symm.trans h)

end

/-! ### The obligations -/

/-- Settles O30: the signal of a completed instruction is that of its shape. -/
theorem onlyEcallAndEbreakSignal : Obligations.OnlyEcallAndEbreakSignal := by
  intro i s t h
  rw [signal_of_exec_next h]
  exact ⟨signalOf_eq_environmentCall_iff, signalOf_eq_breakpoint_iff⟩

/-- Settles O31: of the two faults an execution can answer, the width rules out the illegal word. -/
theorem onlyLoadsAndStoresFault : Obligations.OnlyLoadsAndStoresFault := by
  intro i s f hi h
  have hshape : ExecShape i s (.fault f) := h ▸ exec_shape i s
  cases hshape with
  | illegal hillegal => exact nomatch hi.symm.trans hillegal
  | memory a n k hout hk =>
    refine ⟨a, n, hout, ?_⟩
    rcases hk with ⟨rfl, hload⟩ | ⟨rfl, hstore⟩
    · exact .inl ⟨rfl, hload⟩
    · exact .inr ⟨rfl, hstore⟩

/-- Settles O46: the stages one after the other; past the budget check the step is the execution, charged. -/
theorem conditionsAreReportedInStageOrder : Obligations.ConditionsAreReportedInStageOrder := by
  refine fun s => ⟨fun hf => outcome_of_memoryFault (step_of_not_fetchable hf),
    fun hf hd => outcome_of_decodeError (step_of_illegal hf hd), fun i hf hd =>
    ⟨fun hb => outcome_of_cycleBudgetExceeded (step_of_not_fits hf hd hb), fun hb a n k hexec => ?fault,
      fun hb t g hexec hg => ?signal, fun hb t hexec hg => ?next⟩⟩
  all_goals obtain ⟨hnext, hfault⟩ := stepRunsTheDecodedInstruction s i hf hd hb
  case fault => exact outcome_of_memoryFault (hfault _ hexec)
  case signal => exact outcome_of_signal (hnext t hexec) hg
  case next => exact outcome_of_next (hnext t hexec) hg

/-- Settles O50: the fetch and the decoding do not read the budget, so the next step executes the instruction that did
not fit before. -/
theorem hostResumesAfterAHalt : Obligations.HostResumesAfterAHalt := by
  intro s b hhalt
  obtain ⟨i, hf, hd, -⟩ := stages_of_step_halts (step_of_outcome_halt hhalt)
  exact ⟨i, hd, fun hfits => step_of_fits (s := s.hostSetBudget b) hf hd hfits⟩

end Sys2Proof.Machine
end

section
/-! SUPPORT. Proofs of the family 70_reset_and_hazards.md: what a machine holds after reset, and that it is legal. -/

namespace Sys2Proof.Machine

open Sys2Proof.Spec

theorem Memory.within_nil (k : Nat) : Memory.within [] k := fun _ h => nomatch h

theorem Config.reference_wf : Config.reference.wf := by decide

/-- The image is the host's to choose and must be legal; no budget is too small, for `cycles` is 0 after reset
(70_reset_and_hazards.md R340, 10_state.md R28). -/
theorem State.resetWith_inv {c : Config} {p : ResetParams c.width.bits} (hc : c.wf) (hwf : p.memInit.wf)
    (hin : p.memInit.within c.memSize) : (State.resetWith c p).Inv where
  cfg := hc
  memWf := hwf
  memWithin := hin
  budget := by simp

/-- Settles O52: register 0 reads as 0 by its rule and the others hold the 0 of the reset; what the host
passes is stored unchanged. -/
theorem resetStateIsAsGiven : Obligations.ResetStateIsAsGiven :=
  fun c p => ⟨State.resetWith_x c p, State.resetWith_pc c p, State.resetWith_cycles c p, State.resetWith_budget c p,
    fun a => congrArg (Memory.read · a) (State.resetWith_mem c p)⟩

/-- Settles O53: the reference instance is one of the legal resets, with an empty image. -/
theorem resetMeetsTheInvariant : Obligations.ResetMeetsTheInvariant :=
  ⟨State.resetWith_inv Config.reference_wf Memory.wf_nil (Memory.within_nil _), fun _ _ => State.resetWith_inv⟩

end Sys2Proof.Machine
end
